-- ==== Sys2Proof/Word.lean ====
section
/-! DEFINITION. The bit widths of the block's registers and ports, under the spec's names. -/

namespace Sys2Proof

/-- The command word `CW`, and the width of `STATUS` (R61, R26). -/
abbrev Word := BitVec 32

/-- A Seed, and the generator register `S`: `SW` = 128 bits (R7, R20). -/
abbrev Reg128 := BitVec 128

/-- The ports `A_IN` and `B_IN`: `AW` = 1025 bits, two's complement (R8, R67). -/
abbrev BoundWord := BitVec 1025

/-- The port `H_IN`: 512 bits (R67). -/
abbrev DigestWord := BitVec 512

/-- A result value: `RESW` = 1024 bits (R8, R27). -/
abbrev ResultWord := BitVec 1024

/-- The register `BM_LEN`: 21 bits (R25). -/
abbrev LenWord := BitVec 21

end Sys2Proof
end

