-- ==== Sys2Proof/Config.lean ====
section
/-! DEFINITION. What an implementation of the block fixes: the parameters of 00_scope.md R7 and R8.
A decided value is a constant; an open parameter of the map is a structure of operations or an opaque constant. -/

namespace Sys2Proof

/-- The record of real-number operations of the chaotic map (R85). Nothing is assumed of a field but that
it is a total function of its arguments. `R` is the set of values the unit computes with. -/
structure HenonArith where
  R : Type
  /-- the value of a natural number -/
  ofNat : Nat → R
  /-- the constant 1 -/
  c1 : R
  /-- the Hénon constant 1.4 (R84) -/
  cA : R
  /-- the Hénon constant 0.3 (R84) -/
  cB : R
  rmul : R → R → R
  radd : R → R → R
  rsub : R → R → R
  /-- `rmod v N`: the source's "v mod N", for N ≥ 1 (R87) -/
  rmod : R → Nat → R
  /-- the integer part of the magnitude -/
  rfloorabs : R → Nat

/-- The two sign conventions of "mod N" on a negative real (R87). -/
inductive HenonMod where
  | floored
  | trunc
deriving DecidableEq, Repr, Inhabited

namespace Config

/-- `HENON_MOD`: OPEN, no default (R8, R87; 92 D10). A free value: nothing proves which one it is (log entry 4). -/
opaque henonMod : HenonMod

/-- `ISS_MAX`: the largest `nbits` of the sampler (R7). The least is 1. -/
abbrev issMax : Nat := 512

/-- `NEXT_MAX`: the largest `n` of `next_bits` (R7). The least is 1. -/
abbrev nextMax : Nat := 1024

/-- `SW`: width of a Seed and of `S` (R7). -/
abbrev sw : Nat := 128

/-- `BM_CAP`: capacity of the BM store in bits (R8; 92 D7). -/
abbrev bmCap : Nat := 2 ^ 20

/-- `2^RW`, `RW` = 1024: every non-negative range bound is below it (R8, R67; 92 D5). -/
abbrev boundLimit : Nat := 2 ^ 1024

/-- `2^CNTW`, `CNTW` = 32: every batch count is below it (R8, R67; 92 D6). -/
abbrev countLimit : Nat := 2 ^ 32

/-- `2^HASH_BITS`: every digest is below it (R7, R67). -/
abbrev digestLimit : Nat := 2 ^ 512

/-- The largest count the 11-bit field `N` of `CW` can hold (R66). -/
abbrev countFieldMax : Nat := 2047

/-- `CSS_MIN`, `CSS_MAX`: the legal range of `nbytes` of the external cursor seed source (R7). -/
abbrev cssMin : Nat := 16

abbrev cssMax : Nat := 32

end Config

end Sys2Proof
end

