-- ==== Sys2Proof/Syntax.lean ====
section
/-! DEFINITION. The commands of IRB-CS as syntax, and a command as it crosses the command port. -/

namespace Sys2Proof

/-- One command, with the operands 30_encoding.md R74 decodes, as the integers R67 reads them as.
One constructor per row of the opcode table (R68). -/
inductive Instr where
  /-- `BMCLR` (R80) -/
  | bmclr
  /-- `BMPUSH b` (R81) -/
  | bmpush (b : Bool)
  /-- `ISAMP nbits` (R92) -/
  | isamp (nbits : Nat)
  /-- `ISEED` (R95) -/
  | iseed
  /-- `SEED seed` (R111) -/
  | seed (seed : Reg128)
  /-- `NEXT n, e` (R116) -/
  | next (n : Nat) (enforce : Bool)
  /-- `RSTREAM a, b, count` (R134) -/
  | rstream (a b : Int) (count : Nat)
  /-- `RHASH a, b, h` (R138) -/
  | rhash (a b : Int) (h : Nat)
deriving DecidableEq, Repr

/-- One transfer on the command port: the command word and the five side operands sampled with it
(R28, R53, R60). -/
structure Transfer where
  cw : Word
  seedIn : Reg128
  aIn : BoundWord
  bIn : BoundWord
  cntIn : Word
  hIn : DigestWord
deriving DecidableEq, Repr

/-- Why a command word is illegal (R69). -/
inductive Illegal where
  /-- `OPC` is 0x0 or 0x9 to 0xF -/
  | reservedOpcode
  /-- `OPC` is a command's, and a bit its format requires to be zero is 1 -/
  | reservedBits
deriving DecidableEq, Repr

/-- A row of the opcode map: a word `w` selects it iff `w &&& mask = pattern` (R68). -/
structure OpcodeRow where
  pattern : Word
  mask : Word
deriving DecidableEq, Repr

end Sys2Proof
end

