-- ==== Sys2Proof/WellFormed.lean ====
section
/-! DEFINITION. Which commands can be written down: the operand ranges of 30_encoding.md R72 and R67. A command
the block rejects (`NEXT 0, 0`, `ISAMP 600`) is well-formed; one that no transfer can carry is not. -/

namespace Sys2Proof

/-- The count fits the 11-bit field `N` (R66, R72). -/
def fitsCountField (n : Nat) : Bool := n ≤ Config.countFieldMax

/-- The bound is in the range of an `AW`-bit two's-complement port (R67). -/
def fitsBound (a : Int) : Bool := -(Config.boundLimit : Int) ≤ a && a < (Config.boundLimit : Int)

/-- The batch count fits `CNT_IN` (R67). -/
def fitsCount (count : Nat) : Bool := count < Config.countLimit

/-- The digest fits `H_IN` (R67). -/
def fitsDigest (h : Nat) : Bool := h < Config.digestLimit

/-- The assembler's acceptance of a command (R72). -/
def Instr.wf : Instr → Bool
  | .bmclr => true
  | .bmpush _ => true
  | .isamp nbits => fitsCountField nbits
  | .iseed => true
  | .seed _ => true
  | .next n _ => fitsCountField n
  | .rstream a b count => fitsBound a && fitsBound b && fitsCount count
  | .rhash a b h => fitsBound a && fitsBound b && fitsDigest h

end Sys2Proof
end

