-- ==== Sys2Proof/Decode.lean ====
section
/-! DEFINITION. The decoder of 30_encoding.md R74, total on every transfer, and the encoder of R72. -/

namespace Sys2Proof

/-- `sext_AW` (R9): an `AW`-bit pattern read as two's complement. -/
def sextBound (v : BoundWord) : Int := v.toInt

/-- `a mod 2^AW` (R72): the two's-complement pattern of a bound. -/
def boundWord (a : Int) : BoundWord := BitVec.ofInt 1025 a

/-- The field `N` of a command word, zero-extended (R61, R66). -/
def countField (cw : Word) : Nat := (cw.extractLsb' 0 11).toNat

/-- The flag `E` of a command word (R61). -/
def enforceField (cw : Word) : Bool := cw.getLsbD 11

/-- The data bit of `BMPUSH` (R63). -/
def dataBitField (cw : Word) : Bool := cw.getLsbD 0

/-- The field `OPC` of a command word (R61). -/
def opcField (cw : Word) : BitVec 4 := cw.extractLsb' 28 4

/-- Which reason makes a word that matches no row illegal (R69). -/
def illegalReason (cw : Word) : Illegal :=
  if opcField cw = 0x0#4 ∨ 0x8#4 < opcField cw then .reservedOpcode else .reservedBits

/-- The decoder (R74): a command, or the reason the word is illegal. -/
def decode (t : Transfer) : Except Illegal Instr :=
  if t.cw = 0x10000000#32 then .ok .bmclr
  else if t.cw &&& 0xFFFFFFFE#32 = 0x20000000#32 then .ok (.bmpush (dataBitField t.cw))
  else if t.cw &&& 0xFFFFF800#32 = 0x30000000#32 then .ok (.isamp (countField t.cw))
  else if t.cw = 0x40000000#32 then .ok .iseed
  else if t.cw = 0x50000000#32 then .ok (.seed t.seedIn)
  else if t.cw &&& 0xFFFFF000#32 = 0x60000000#32 then .ok (.next (countField t.cw) (enforceField t.cw))
  else if t.cw = 0x70000000#32 then .ok (.rstream (sextBound t.aIn) (sextBound t.bIn) t.cntIn.toNat)
  else if t.cw = 0x80000000#32 then .ok (.rhash (sextBound t.aIn) (sextBound t.bIn) t.hIn.toNat)
  else .error (illegalReason t.cw)

/-- The transfer of a command word whose side operands are all zero (log entry 12). -/
def bareTransfer (cw : Word) : Transfer :=
  { cw := cw, seedIn := 0#128, aIn := 0#1025, bIn := 0#1025, cntIn := 0#32, hIn := 0#512 }

/-- The encoder (R72). A port the command does not read carries zero (R60; log entry 12). -/
def encode : Instr → Transfer
  | .bmclr => bareTransfer 0x10000000#32
  | .bmpush b => bareTransfer (0x20000000#32 + (BitVec.ofBool b).setWidth 32)
  | .isamp nbits => bareTransfer (0x30000000#32 + BitVec.ofNat 32 nbits)
  | .iseed => bareTransfer 0x40000000#32
  | .seed seed => { bareTransfer 0x50000000#32 with seedIn := seed }
  | .next n e => bareTransfer (0x60000000#32 + ((BitVec.ofBool e).setWidth 32 <<< 11) + BitVec.ofNat 32 n)
  | .rstream a b count =>
    { bareTransfer 0x70000000#32 with aIn := boundWord a, bIn := boundWord b, cntIn := BitVec.ofNat 32 count }
  | .rhash a b h =>
    { bareTransfer 0x80000000#32 with aIn := boundWord a, bIn := boundWord b, hIn := BitVec.ofNat 512 h }

/-- The opcode map's row of a command (R68). -/
def opcodeRow : Instr → OpcodeRow
  | .bmclr => ⟨0x10000000#32, 0xFFFFFFFF#32⟩
  | .bmpush _ => ⟨0x20000000#32, 0xFFFFFFFE#32⟩
  | .isamp _ => ⟨0x30000000#32, 0xFFFFF800#32⟩
  | .iseed => ⟨0x40000000#32, 0xFFFFFFFF#32⟩
  | .seed _ => ⟨0x50000000#32, 0xFFFFFFFF#32⟩
  | .next _ _ => ⟨0x60000000#32, 0xFFFFF000#32⟩
  | .rstream _ _ _ => ⟨0x70000000#32, 0xFFFFFFFF#32⟩
  | .rhash _ _ _ => ⟨0x80000000#32, 0xFFFFFFFF#32⟩

/-- The opcode map (R68), row by row. -/
def opcodeMap : List OpcodeRow :=
  [⟨0x10000000#32, 0xFFFFFFFF#32⟩, ⟨0x20000000#32, 0xFFFFFFFE#32⟩,
   ⟨0x30000000#32, 0xFFFFF800#32⟩, ⟨0x40000000#32, 0xFFFFFFFF#32⟩,
   ⟨0x50000000#32, 0xFFFFFFFF#32⟩, ⟨0x60000000#32, 0xFFFFF000#32⟩,
   ⟨0x70000000#32, 0xFFFFFFFF#32⟩, ⟨0x80000000#32, 0xFFFFFFFF#32⟩]

/-- The transfer of the table's numbering: the low `nbits` bits of `w` as the command word, every other bit zero. -/
def tableTransfer (nbits w : Nat) : Transfer := bareTransfer (BitVec.ofNat 32 (w % 2 ^ nbits))

/-- What the decoder reads from the table's word `w` of `nbits` bits. -/
def decodeTableWord (nbits w : Nat) : Option Instr := (decode (tableTransfer nbits w)).toOption

end Sys2Proof
end

