-- ==== Sys2Proof/Machine/State.lean ====
section
/-! DEFINITION. The state of the block (10_state.md) as plain data, the reasons a step can stop, and the state after reset. -/

namespace Sys2Proof.Machine

/-- The BM store: the cells that have been written, as (bit index, bit) pairs, indices strictly rising.
The addressable unit is one bit (R40). -/
abbrev Memory := List (Nat × Bool)

/-- A result event `(op, value)` (R27). -/
structure Event where
  op : BitVec 4
  value : ResultWord
deriving DecidableEq, Repr

/-- What the host can do to the block (R75, R180). -/
inductive HostInput where
  /-- a command presented on the command port -/
  | command (t : Transfer)
  /-- the reset input, asserted and released between two commands -/
  | reset
deriving DecidableEq, Repr

/-- The block's state: R20 to R27, and the inputs the host presents. -/
structure State where
  /-- `S`, the GeneratorState (R20) -/
  regS : Reg128
  /-- `SEEDED` (R23) -/
  seeded : Bool
  /-- `K`, ghost: steps since the last seeding (R24) -/
  k : Nat
  /-- `BM` (R25) -/
  bm : Memory
  /-- `BM_LEN` (R25) -/
  bmLen : LenWord
  /-- `STATUS` (R26) -/
  status : Word
  /-- `RES`, oldest event first (R27) -/
  res : List Event
  /-- the model's own field: the inputs the host presents, next first (log entry 1) -/
  port : List HostInput
deriving DecidableEq, Repr

/-- Why a step stops. No state that a run from reset reaches answers any of these. -/
inductive Fault where
  /-- Raised by the index walk of `ISAMP` and `ISEED`: a cell below `BM_LEN` that nothing has written, so that it
  has no value (R181; log entry 3). Safe. -/
  | bmCellUnwritten
  /-- Raised by `BMPUSH`: `BM_LEN` is above `BM_CAP`, so the cell to write is outside the BM address space
  (R40; log entry 11). Safe. -/
  | bmAddress
deriving DecidableEq, Repr

/-- Why an instruction is refused. -/
inductive Refusal where
  /-- Raised by an arm of `exec` whose instruction has no meaning yet; this model has none. Safe. -/
  | notModelled (mnemonic : String)
deriving DecidableEq, Repr

/-- The state after reset (R32). `S` is unspecified there and is 0 here (DESIGN CHOICE, log entry 2);
no BM cell has a value (log entry 3); nothing is presented on the port (log entry 1). -/
def State.reset : State :=
  { regS := 0#128, seeded := false, k := 0, bm := [], bmLen := 0#21, status := 0#32, res := [], port := [] }

end Sys2Proof.Machine
end

