-- ==== Sys2Proof/Machine/Flags.lean ====
section
/-! DEFINITION. The completion codes (60_exceptions.md R150) and the status word (10_state.md R26). -/

namespace Sys2Proof.Machine

/-- The completion codes: exactly seven (R150; 93 U4). -/
inductive Code where
  | ok
  | errParam
  | errPrecond
  | errUnseeded
  | errIllegal
  | errBmfull
  | errBmindex
deriving DecidableEq, Repr

/-- The number of a completion code (R150). -/
def codeBits : Code → BitVec 4
  | .ok => 0#4
  | .errParam => 1#4
  | .errPrecond => 2#4
  | .errUnseeded => 3#4
  | .errIllegal => 4#4
  | .errBmfull => 5#4
  | .errBmindex => 6#4

/-- The status word: `CODE` in 3:0, `DEPR` in 4, `SEEDED` in 5, 31:6 zero (R26). -/
def statusWord (c : Code) (depr seeded : Bool) : Word :=
  0#26 ++ BitVec.ofBool seeded ++ BitVec.ofBool depr ++ codeBits c

/-- `STATUS.CODE` (R26). -/
def statusCode (w : Word) : BitVec 4 := w.extractLsb' 0 4

/-- `STATUS.DEPR` (R26, R139). -/
def statusDepr (w : Word) : Bool := w.getLsbD 4

/-- `STATUS.SEEDED` (R26). -/
def statusSeeded (w : Word) : Bool := w.getLsbD 5

end Sys2Proof.Machine
end

