-- ==== Sys2Proof/Machine/Ops.lean ====
section
/-! DEFINITION. The named operations over the store, the registers, the result stream and the port, and how a
command ends: completing and raising (60_exceptions.md R155). -/

namespace Sys2Proof.Machine

/-- The cell at an index; an unlisted cell has no value (R25, R32; log entry 3). -/
def Memory.read : Memory → Nat → Option Bool
  | [], _ => none
  | (j, b) :: rest, i => if j = i then some b else Memory.read rest i

/-- Sets one cell, keeping the indices strictly rising. -/
def Memory.write : Memory → Nat → Bool → Memory
  | [], i, b => [(i, b)]
  | (j, c) :: rest, i, b =>
    if j < i then (j, c) :: Memory.write rest i b
    else if j = i then (i, b) :: rest
    else (i, b) :: (j, c) :: rest

/-- Every listed index is above `lo` and they rise strictly. -/
def Memory.risingFrom : Nat → Memory → Bool
  | _, [] => true
  | lo, (j, _) :: rest => lo ≤ j && Memory.risingFrom (j + 1) rest

/-- The canonical form: indices strictly rising, each inside the address space `0 … BM_CAP−1` (R40). -/
def Memory.wf (m : Memory) : Bool := Memory.risingFrom 0 m && m.all (fun c => c.1 < Config.bmCap)

/-- The three ways `BMRead` can end (R42). -/
inductive BmBit where
  | bit (b : Bool)
  /-- the index is not below `BM_LEN`: nothing is read -/
  | outOfRange
  /-- below `BM_LEN`, but nothing has written the cell -/
  | unwritten
deriving DecidableEq, Repr

/-- `BMRead(i)` with `BM_LEN = len`: requires `i < BM_LEN` (R10, R42). -/
def bmRead (m : Memory) (len i : Nat) : BmBit :=
  if i < len then
    match Memory.read m i with
    | some b => .bit b
    | none => .unwritten
  else .outOfRange

/-- `BMWrite(i, b)`: only inside the address space (R10, R40). -/
def bmWrite (m : Memory) (i : Nat) (b : Bool) : Option Memory :=
  if i < Config.bmCap then some (Memory.write m i b) else none

/-- Writes the store. -/
def State.setBm (m : Memory) (s : State) : State := { s with bm := m }

/-- Writes `BM_LEN`. -/
def State.setBmLen (n : LenWord) (s : State) : State := { s with bmLen := n }

/-- Starts a new generator instance: `S <- v`, `SEEDED <- 1`, `K <- 0` (R95, R111). -/
def State.loadSeed (v : Reg128) (s : State) : State := { s with regS := v, seeded := true, k := 0 }

/-- Leaves the register advanced by `n` steps: `S <- v`, `K <- K + n` (R24, R110). -/
def State.advance (v : Reg128) (n : Nat) (s : State) : State := { s with regS := v, k := s.k + n }

/-- A result event: its value is carried in `RESW` bits (R27). -/
def event (op : BitVec 4) (v : Nat) : Event := { op := op, value := BitVec.ofNat 1024 v }

/-- `emit(op, v)` for each value in order: appends to `RES` (R10, R27). -/
def State.emitAll (op : BitVec 4) (vs : List Nat) (s : State) : State :=
  { s with res := s.res ++ vs.map (event op) }

/-- Ends a command: `STATUS` is rewritten with the code, the advisory and a copy of `SEEDED` as it stands now
(R26). -/
def State.finish (c : Code) (depr : Bool) (s : State) : State :=
  { s with status := statusWord c depr s.seeded }

/-- `complete OK` (R10). -/
def complete (depr : Bool) (s : State) : State := State.finish .ok depr s

/-- `raise <Code>`: TAKING AN EXCEPTION of this block. It writes `STATUS` and nothing else; nothing is saved and
control goes nowhere, so there is nothing to return from (R155, R158). -/
def raise (c : Code) (depr : Bool) (s : State) : State := State.finish c depr s

/-- What an illegal command word does (R69, R154, R155). -/
def raiseIllegal (s : State) : State := raise .errIllegal false s

/-- Replaces what the host presents. -/
def State.setPort (p : List HostInput) (s : State) : State := { s with port := p }

/-- The next input the host presents, if there is one, and the state without it (R48, R75). -/
def takeInput (s : State) : Option (HostInput × State) :=
  match s.port with
  | [] => none
  | x :: rest => some (x, s.setPort rest)

/-- The reset input between two commands: every element at its reset value; what the host presents next is
outside the block and stays (R180, R32; log entry 8). `S` is 0 and no BM cell has a value then (log entries 2, 3). -/
def takeReset (s : State) : State := State.reset.setPort s.port

/-- One step of the block, the meaning of the commands given: it takes the next input the host presents (R48), and
changes nothing when there is none (93 U16). A command is decoded and executed to completion; an illegal word is
rejected (R69); the reset input puts the block in its reset state (R180). -/
def stepBy (meaning : Instr → State → Host.Outcome State Fault Refusal) (s : State) :
    Host.Outcome State Fault Refusal :=
  match takeInput s with
  | none => .next s
  | some (.reset, s') => .next (takeReset s')
  | some (.command t, s') =>
    match decode t with
    | .ok i => meaning i s'
    | .error _ => .next (raiseIllegal s')

end Sys2Proof.Machine
end

