-- ==== Sys2Proof/Machine/Operands.lean ====
section
/-! DEFINITION. Operand checks and the integer arithmetic the commands share (00_scope.md R9, 44_range_mapper.md R131 to R137). -/

namespace Sys2Proof.Machine

/-- `bitlen(v)`: the number of bits of `v` (R9). -/
def bitlen (v : Nat) : Nat := if v = 0 then 0 else Nat.log2 v + 1

/-- The bounds are refused: `a < 0 or b < 0 or a > b` (R131). -/
def badBounds (a b : Int) : Bool := a < 0 || b < 0 || b < a

/-- The draw width of the stream strategy: `max(1, bitlen(b − a))` (R132, R133). -/
def drawWidth (a b : Int) : Nat := max 1 (bitlen (b - a).toNat)

/-- The modulus `m = b − a + 1` (R134, R137). -/
def modulus (a b : Int) : Nat := (b - a + 1).toNat

/-- `a + (x mod (b − a + 1))`, for validated bounds (R134, R138). -/
def mapInto (a b : Int) (x : Nat) : Nat := a.toNat + x % modulus a b

/-- One more bit below the bits assembled so far: `(out << 1) | bit` (R90, R113). -/
def appendBit (out : Nat) (bit : Bool) : Nat := (out <<< 1) ||| bit.toNat

end Sys2Proof.Machine
end

