-- ==== Sys2Proof/Machine/Generator.lean ====
section
/-! DEFINITION. The BitStreamGenerator unit (43_bitstream_generator.md): the step, drawing bits, `SEED` and `NEXT`. -/

namespace Sys2Proof.Machine

/-- The feedback bit: the parity of the taps 0, 1, 2, 7 of the register before the shift (R110). -/
def feedback (S : Reg128) : Bool :=
  S.getLsbD 0 ^^ S.getLsbD 1 ^^ S.getLsbD 2 ^^ S.getLsbD 7

/-- The register after one step: shifted right, the feedback in bit 127 (R110). -/
def lfsrNext (S : Reg128) : Reg128 :=
  (S >>> 1) ||| ((BitVec.ofBool (feedback S)).setWidth 128 <<< 127)

/-- The bit a step outputs: bit 0 of the register after the shift (R110). -/
def lfsrOut (S : Reg128) : Bool := (lfsrNext S).getLsbD 0

/-- `n` steps from register `S`, each output bit appended below the bits of `out`: the register after them, and the
accumulated integer (R113). -/
def drawBits : Nat → Reg128 → Nat → Reg128 × Nat
  | 0, S, out => (S, out)
  | n + 1, S, out => drawBits n (lfsrNext S) (appendBit out (lfsrOut S))

/-- Forces bit `n − 1` of a drawn integer when the flag is set (R114). -/
def forceTop (n : Nat) (enforce : Bool) (out : Nat) : Nat :=
  if enforce then out ||| (1 <<< (n - 1)) else out

/-- `NextBits(n, enforce)`: the register afterwards and the integer returned (R113, R114). -/
def nextBits (n : Nat) (enforce : Bool) (S : Reg128) : Reg128 × Nat :=
  ((drawBits n S 0).1, forceTop n enforce (drawBits n S 0).2)

/-- `SEED seed` (R111): every 128-bit value is accepted, zero too (R120). -/
def execSeed (seed : Reg128) (s : State) : Host.Outcome State Fault Refusal :=
  .next (complete false (s.loadSeed seed))

/-- `NEXT n, e` (R115, R116). -/
def execNext (n : Nat) (enforce : Bool) (s : State) : Host.Outcome State Fault Refusal :=
  if n < 1 ∨ Config.nextMax < n then .next (raise .errParam false s)
  else if s.seeded = false then .next (raise .errUnseeded false s)
  else
    let d := nextBits n enforce s.regS
    .next (complete false ((s.advance d.1 n).emitAll 0x6#4 [d.2]))

end Sys2Proof.Machine
end

