-- ==== Sys2Proof/Machine/RangeMapper.lean ====
section
/-! DEFINITION. The RangeMapper unit (44_range_mapper.md): `RSTREAM` and `RHASH`. -/

namespace Sys2Proof.Machine

/-- `count` draws of `nbits` bits in order, each drawn integer mapped into `[a, b]`: the register afterwards and the
values in draw order (R134, R135). -/
def drawValues (a b : Int) (nbits : Nat) : Nat → Reg128 → Reg128 × List Nat
  | 0, S => (S, [])
  | count + 1, S =>
    let d := nextBits nbits false S
    let rest := drawValues a b nbits count d.1
    (rest.1, mapInto a b d.2 :: rest.2)

/-- `RSTREAM a, b, count` (R131, R134, R136). -/
def execRstream (a b : Int) (count : Nat) (s : State) : Host.Outcome State Fault Refusal :=
  if badBounds a b then .next (raise .errParam false s)
  else
    let nbits := drawWidth a b
    if 1 ≤ count ∧ Config.nextMax < nbits then .next (raise .errParam false s)
    else if s.seeded = false then .next (raise .errUnseeded false s)
    else
      let d := drawValues a b nbits count s.regS
      .next (complete false ((s.advance d.1 (count * nbits)).emitAll 0x7#4 d.2))

/-- `RHASH a, b, h` (R138): the generator is not involved, and the advisory `DEPR` accompanies every code (R139). -/
def execRhash (a b : Int) (h : Nat) (s : State) : Host.Outcome State Fault Refusal :=
  if badBounds a b then .next (raise .errParam true s)
  else .next (complete true (s.emitAll 0x8#4 [mapInto a b h]))

end Sys2Proof.Machine
end

