-- ==== Sys2Proof/Machine/Binary64.lean ====
section
/-! DEFINITION. The `BINARY64` instantiation of the map's arithmetic (41_image_seed_sampler.md R86, R87). A finite binary64
number is held as an integer times a power of two; +0 and −0 are one value, and there is no largest exponent
(log entry 6; R97 shows that none is reached). -/

namespace Sys2Proof.Machine

/-- The number `num · 2^exp`. -/
structure B64 where
  num : Int
  exp : Int
deriving DecidableEq, Repr

/-- The number a bit pattern of a finite binary64 number stands for: 1 sign bit, 11 exponent bits, 52 fraction bits
(R86; 93 part 2 item 1). -/
def b64OfPattern (p : BitVec 64) : B64 :=
  let frac := (p.extractLsb' 0 52).toNat
  let ef := (p.extractLsb' 52 11).toNat
  let mag : Nat := if ef = 0 then frac else 2 ^ 52 + frac
  { num := if p.getLsbD 63 then -(mag : Int) else (mag : Int)
    exp := ((max ef 1 : Nat) : Int) - 1075 }

/-- The binary64 number nearest an exact value, ties to the one with an even last fraction bit (R86). -/
def b64Round (x : B64) : B64 :=
  let mag := x.num.natAbs
  let e : Int := max (x.exp + (bitlen mag : Int) - 53) (-1074)
  if e ≤ x.exp then x
  else
    let sh := (e - x.exp).toNat
    let q := mag / 2 ^ sh
    let rem := mag % 2 ^ sh
    let half := 2 ^ (sh - 1)
    let up : Nat := if half < rem ∨ (rem = half ∧ q % 2 = 1) then 1 else 0
    { num := x.num.sign * ((q + up : Nat) : Int), exp := e }

/-- The numerator of `x` over the power `2^e`, for `e ≤ x.exp`. -/
def b64NumAt (x : B64) (e : Int) : Int := x.num * ((2 ^ (x.exp - e).toNat : Nat) : Int)

/-- The exact sum. -/
def b64ExactAdd (x y : B64) : B64 :=
  let e := min x.exp y.exp
  { num := b64NumAt x e + b64NumAt y e, exp := e }

/-- The exact product. -/
def b64ExactMul (x y : B64) : B64 := { num := x.num * y.num, exp := x.exp + y.exp }

def b64Neg (x : B64) : B64 := { x with num := -x.num }

/-- `rmul` (R86): the product, rounded once. -/
def b64Mul (x y : B64) : B64 := b64Round (b64ExactMul x y)

/-- `radd` (R86): the sum, rounded once. -/
def b64Add (x y : B64) : B64 := b64Round (b64ExactAdd x y)

/-- `rsub` (R86): the difference, rounded once. -/
def b64Sub (x y : B64) : B64 := b64Round (b64ExactAdd x (b64Neg y))

/-- `ofNat` (R86): the binary64 number equal to `k`, exact for `k ≤ 2^53`. -/
def b64OfNat (k : Nat) : B64 := b64Round { num := (k : Int), exp := 0 }

/-- `r0 = v − trunc(v / N) · N`, exact, with the sign of `v` (R87). -/
def b64TruncMod (v : B64) (N : Nat) : B64 :=
  let up := v.exp.toNat
  let down := (-v.exp).toNat
  { num := Int.tmod (v.num * ((2 ^ up : Nat) : Int)) ((N * 2 ^ down : Nat) : Int), exp := -(down : Int) }

/-- `rmod` (R87): `TRUNC` is `r0`; `FLOORED` adds `N`, in one rounded addition, to a negative `r0`. -/
def b64Mod (mode : HenonMod) (v : B64) (N : Nat) : B64 :=
  let r0 := b64TruncMod v N
  match mode with
  | .trunc => r0
  | .floored => if 0 ≤ r0.num then r0 else b64Add r0 (b64OfNat N)

/-- `rfloorabs` (R86): the exact integer part of the magnitude. -/
def b64FloorAbs (v : B64) : Nat := v.num.natAbs * 2 ^ v.exp.toNat / 2 ^ (-v.exp).toNat

/-- The `BINARY64` arithmetic under a convention of "mod" (R86). -/
@[reducible] def binary64 (mode : HenonMod) : HenonArith where
  R := B64
  ofNat := b64OfNat
  c1 := b64OfNat 1
  cA := b64OfPattern 0x3FF6666666666666#64
  cB := b64OfPattern 0x3FD3333333333333#64
  rmul := b64Mul
  radd := b64Add
  rsub := b64Sub
  rmod := b64Mod mode
  rfloorabs := b64FloorAbs

end Sys2Proof.Machine
end

