-- ==== Sys2Proof/Machine/Exact.lean ====
section
/-! DEFINITION. The `EXACT` instantiation of the map's arithmetic: the rational numbers (41_image_seed_sampler.md R96, R87). -/

namespace Sys2Proof.Machine

/-- `r0 = v − trunc(v / N) · N` (R87). -/
def ratTruncMod (v : Rat) (N : Nat) : Rat :=
  v - ((Int.tdiv v.num ((v.den * N : Nat) : Int) * (N : Int) : Int) : Rat)

/-- `rmod` without rounding (R87, R96). -/
def ratMod (mode : HenonMod) (v : Rat) (N : Nat) : Rat :=
  let r0 := ratTruncMod v N
  match mode with
  | .trunc => r0
  | .floored => if 0 ≤ r0.num then r0 else r0 + (N : Rat)

/-- The integer part of the magnitude. -/
def ratFloorAbs (v : Rat) : Nat := v.num.natAbs / v.den

/-- The `EXACT` arithmetic under a convention of "mod" (R96). -/
@[reducible] def exactArith (mode : HenonMod) : HenonArith where
  R := Rat
  ofNat := fun k => (k : Rat)
  c1 := 1
  cA := mkRat 7 5
  cB := mkRat 3 10
  rmul := fun x y => x * y
  radd := fun x y => x + y
  rsub := fun x y => x - y
  rmod := ratMod mode
  rfloorabs := ratFloorAbs

end Sys2Proof.Machine
end

