-- ==== Sys2Proof/Machine/Sampler.lean ====
section
/-! DEFINITION. The ImageSeedSampler unit (41_image_seed_sampler.md): loading the BitMatrix, the index walk, `BMCLR`, `BMPUSH`,
`ISAMP` and `ISEED`. -/

namespace Sys2Proof.Machine

/-- The arithmetic of this machine's map: the spec's default `BINARY64` (R86; 92 D9; log entry 5) under the open
convention `HENON_MOD` (R87; log entry 4). -/
@[reducible] def henonArith : HenonArith := binary64 Config.henonMod

/-- One iteration of the map: both new values from the old pair (R88). -/
def henonStep (A : HenonArith) (p : A.R × A.R) (N : Nat) : A.R × A.R :=
  (A.rmod (A.radd (A.rsub A.c1 (A.rmul A.cA (A.rmul p.1 p.1))) p.2) N, A.rmul A.cB p.1)

/-- The initial coordinates `x = nbits − 1`, `y = nbits + 1` (R84). -/
def henonInit (A : HenonArith) (nbits : Nat) : A.R × A.R := (A.ofNat (nbits - 1), A.ofNat (nbits + 1))

/-- The index read after an iteration: ⌊|x|⌋ of the new first coordinate (R89). -/
def sampleIndex (A : HenonArith) (p : A.R × A.R) : Nat := A.rfloorabs p.1

/-- How a walk ends. -/
inductive Sample where
  /-- every index was in range: the bits read, first one most significant -/
  | value (v : Nat)
  /-- an index was not below `BM_LEN` (R94 (d)) -/
  | badIndex
  /-- a cell below `BM_LEN` had never been written -/
  | unwritten
deriving DecidableEq, Repr

/-- The loop of the sampling function: `fuel` iterations still to do from the pair `p`, with the bits read so far in
`out` (R88 to R91). -/
def walk (A : HenonArith) (m : Memory) (N : Nat) : Nat → A.R × A.R → Nat → Sample
  | 0, _, out => .value out
  | fuel + 1, p, out =>
    let p' := henonStep A p N
    match bmRead m N (sampleIndex A p') with
    | .bit b => walk A m N fuel p' (appendBit out b)
    | .outOfRange => .badIndex
    | .unwritten => .unwritten

/-- `ISample(nbits)` (R91). -/
def iSample (A : HenonArith) (m : Memory) (N nbits : Nat) : Sample :=
  walk A m N nbits (henonInit A nbits) 0

/-- `ISAMP` under an arithmetic (R92). -/
def isampWith (A : HenonArith) (nbits : Nat) (s : State) : Host.Outcome State Fault Refusal :=
  if nbits < 1 ∨ Config.issMax < nbits then .next (raise .errParam false s)
  else if s.bmLen.toNat = 0 then .next (raise .errPrecond false s)
  else
    match iSample A s.bm s.bmLen.toNat nbits with
    | .value v => .next (complete false (s.emitAll 0x3#4 [v]))
    | .badIndex => .next (raise .errBmindex false s)
    | .unwritten => .fault .bmCellUnwritten

/-- `ISEED` under an arithmetic (R95). -/
def iseedWith (A : HenonArith) (s : State) : Host.Outcome State Fault Refusal :=
  if s.bmLen.toNat = 0 then .next (raise .errPrecond false s)
  else
    match iSample A s.bm s.bmLen.toNat Config.sw with
    | .value v => .next (complete false (s.loadSeed (BitVec.ofNat 128 v)))
    | .badIndex => .next (raise .errBmindex false s)
    | .unwritten => .fault .bmCellUnwritten

/-- `BMCLR` (R80): the cells keep what they held. -/
def execBmclr (s : State) : Host.Outcome State Fault Refusal :=
  .next (complete false (s.setBmLen 0#21))

/-- `BMPUSH b` (R81). -/
def execBmpush (b : Bool) (s : State) : Host.Outcome State Fault Refusal :=
  if s.bmLen.toNat = Config.bmCap then .next (raise .errBmfull false s)
  else
    match bmWrite s.bm s.bmLen.toNat b with
    | some m => .next (complete false ((s.setBm m).setBmLen (s.bmLen + 1#21)))
    | none => .fault .bmAddress

/-- `ISAMP nbits` (R92), with this machine's arithmetic. -/
def execIsamp (nbits : Nat) (s : State) : Host.Outcome State Fault Refusal :=
  isampWith henonArith nbits s

/-- `ISEED` (R95), with this machine's arithmetic. -/
def execIseed (s : State) : Host.Outcome State Fault Refusal :=
  iseedWith henonArith s

end Sys2Proof.Machine
end

