-- ==== Sys2Proof/Machine/Dispatch.lean ====
section
/-! DEFINITION. One arm per command, each one direct call of its meaning. -/

namespace Sys2Proof.Machine

def exec (i : Instr) (s : State) : Host.Outcome State Fault Refusal :=
  match i with
  | .bmclr => Sys2Proof.Machine.execBmclr s
  | .bmpush b => Sys2Proof.Machine.execBmpush b s
  | .isamp nbits => Sys2Proof.Machine.execIsamp nbits s
  | .iseed => Sys2Proof.Machine.execIseed s
  | .seed seed => Sys2Proof.Machine.execSeed seed s
  | .next n enforce => Sys2Proof.Machine.execNext n enforce s
  | .rstream a b count => Sys2Proof.Machine.execRstream a b count s
  | .rhash a b h => Sys2Proof.Machine.execRhash a b h s

end Sys2Proof.Machine
end

