-- ==== Sys2Proof/Machine/Step.lean ====
section
/-! DEFINITION. One step of the block: it takes the next input the host presents (20_memory.md R48), and changes nothing when
there is none (93_implementation_defined.md U16). -/

namespace Sys2Proof.Machine

/-- One step: the meanings are those of `exec`. -/
def step (s : State) : Host.Outcome State Fault Refusal := stepBy exec s

/-- The host presents the table's word next, with every side operand zero: the very next step takes it. -/
def State.withFetchWord (s : State) (nbits w : Nat) : State :=
  s.setPort (.command (tableTransfer nbits w) :: s.port)

end Sys2Proof.Machine
end

