-- ==== Sys2Proof/Machine/Configured.lean ====
section
/-! DEFINITION. The block as a function of its open parameter `HenonArith` (00_scope.md R8, 41_image_seed_sampler.md R85; 93 U6):
the meanings, the step and the machine take the arithmetic as an argument, and nothing is assumed of it. The machine
under the names the host fixes is this one at the decided default, `henonArith` (92 D9; log entry 5). -/

namespace Sys2Proof.Machine

/-- The meaning of a command under an arithmetic: only the two commands that sample depend on it (R82, R85). -/
def execWith (A : HenonArith) (i : Instr) (s : State) : Host.Outcome State Fault Refusal :=
  match i with
  | .bmclr => execBmclr s
  | .bmpush b => execBmpush b s
  | .isamp nbits => isampWith A nbits s
  | .iseed => iseedWith A s
  | .seed seed => execSeed seed s
  | .next n enforce => execNext n enforce s
  | .rstream a b count => execRstream a b count s
  | .rhash a b h => execRhash a b h s

/-- One step of the block under an arithmetic. -/
def stepWith (A : HenonArith) (s : State) : Host.Outcome State Fault Refusal := stepBy (execWith A) s

/-- The machine under an arithmetic. -/
def coreWith (A : HenonArith) : Host.Core :=
  { State := State, Fault := Fault, Refusal := Refusal, step := stepWith A, reset := State.reset }

end Sys2Proof.Machine
end

