-- ==== Sys2Proof/Machine/Run.lean ====
section
/-! DEFINITION. A run: a finite list of commands the host issues, and its observable outcome (70_reset_and_hazards.md R194). -/

namespace Sys2Proof.Machine

/-- The meanings of a list of commands, one after another (R48). -/
def execAll : List Instr → State → Host.Outcome State Fault Refusal
  | [], s => .next s
  | i :: rest, s =>
    match exec i s with
    | .next t => execAll rest t
    | .fault r => .fault r
    | .refused r => .refused r

/-- The host issues the transfers one at a time, each when the block is ready, and collects the completion code of
each (R75, R158, R194). -/
def runCommands : List Transfer → State → Host.Outcome (List (BitVec 4) × State) Fault Refusal
  | [], s => .next ([], s)
  | t :: rest, s =>
    match step (s.setPort [.command t]) with
    | .next s' =>
      match runCommands rest s' with
      | .next (codes, u) => .next (statusCode s'.status :: codes, u)
      | .fault r => .fault r
      | .refused r => .refused r
    | .fault r => .fault r
    | .refused r => .refused r

/-- What the host can see of the block: the ports `STATUS`, `BM_LEN`, `RES` (R46, R194). -/
structure Visible where
  status : Word
  bmLen : LenWord
  res : List Event
deriving DecidableEq, Repr

/-- The output ports of a state (R46). -/
def visible (s : State) : Visible := { status := s.status, bmLen := s.bmLen, res := s.res }

end Sys2Proof.Machine
end

