-- ==== Sys2Proof/Machine/HostSide.lean ====
section
/-! DEFINITION. What stands beside the block: the pseudo-commands of the command line (30_encoding.md R73), the host program's
exit status (60_exceptions.md R166), and the external cursor seed source (42_cursor_seed_source.md). None of it is
state or a step of the block; `step` does not use it (log entry 13). -/

namespace Sys2Proof.Machine

/-- An image's rows as the flat sequence the host pushes: row-major (R40). -/
def rowMajor (rows : List (List Bool)) : List Bool := rows.flatten

/-- `-IBR`: image-based seeding (R73). -/
def cliImageSeed (bits : List Bool) : List Instr := .bmclr :: (bits.map .bmpush ++ [.iseed])

/-- `-CPR`: cursor-based seeding, with the seed source's 128-bit seed (R73, R108). -/
def cliCursorSeed (seed : Reg128) : List Instr := [.seed seed]

/-- `-nbits <n>` (R73). -/
def cliBits (n : Nat) : List Instr := [.next n true]

/-- `-range <a> <b>`, stream-based (R73). -/
def cliRange (a b : Int) : List Instr := [.rstream a b 1]

/-- `-range <a> <b>`, hash-based (R73). -/
def cliRangeHash (a b : Int) (h : Nat) : List Instr := [.rhash a b h]

/-- `-nrange <a> <b> <n>` (R73). -/
def cliRanges (a b : Int) (n : Nat) : List Instr := [.rstream a b n]

/-- `-h`: no command (R73). -/
def cliHelp : List Instr := []

/-- The exit status of a host that mirrors the source: 1 when the code is not `OK` (R166). -/
def exitStatus (code : BitVec 4) : Nat := if code = 0#4 then 0 else 1

/-- A cursor position: integer screen coordinates (R102). -/
abbrev CursorSample := Int × Int

/-- The parity bit of a position: the lowest bits of its coordinates, xor-ed (R102). -/
def parityBit (p : CursorSample) : Bool := decide (p.1 % 2 = 1) ^^ decide (p.2 % 2 = 1)

/-- Re-polling until a position different from `p` is seen: the polls after it, or none when the polls run out first
(R102, R105). -/
def awaitMotion (p : CursorSample) : List CursorSample → Option (List CursorSample)
  | [] => none
  | q :: rest => if q = p then awaitMotion p rest else some rest

/-- `todo` parity bits more, most significant first, from the positions `poll()` returns (R102, R103). -/
def cursorBits : Nat → List CursorSample → Nat → Option (Nat × List CursorSample)
  | 0, polls, byte => some (byte, polls)
  | _ + 1, [], _ => none
  | todo + 1, p :: polls, byte =>
    match awaitMotion p polls with
    | none => none
    | some rest => cursorBits todo rest (appendBit byte (parityBit p))

/-- `todo` bytes more, first byte most significant (R102, R103). -/
def cursorBytes : Nat → List CursorSample → Nat → Option Nat
  | 0, _, acc => some acc
  | todo + 1, polls, acc =>
    match cursorBits 8 polls 0 with
    | none => none
    | some (byte, rest) => cursorBytes todo rest ((acc <<< 8) ||| byte)

/-- How a run of the cursor seed source stands. -/
inductive CursorRun where
  /-- `nbytes` outside [16, 32]: rejected before any sample is taken (R101) -/
  | rejected
  /-- no distinguishable motion yet: it waits, without a timeout (R105) -/
  | blocked
  | seed (s : Nat)
deriving DecidableEq, Repr

/-- `CursorSeed(nbytes)` over the positions successive polls return: the top bit is set last (R101, R102, R104). -/
def cursorSeed (nbytes : Nat) (polls : List CursorSample) : CursorRun :=
  if nbytes < Config.cssMin ∨ Config.cssMax < nbytes then .rejected
  else
    match cursorBytes nbytes polls 0 with
    | none => .blocked
    | some s => .seed (s ||| (1 <<< (8 * nbytes - 1)))

end Sys2Proof.Machine
end

