-- ==== Sys2Proof/Safety.lean ====
section
/-! DEFINITION. The terms claims are stated in: the invariant of the block's state, what a run can show, the index sequence of a
sample and the bit sequence of a generator. -/

namespace Sys2Proof.Machine

/-- Every cell of the current BitMatrix has been written (R25, R181). -/
def CellsWritten (s : State) : Prop :=
  ∀ i, i < s.bmLen.toNat → ∃ b, Memory.read s.bm i = some b

/-- The invariant of the state: the store in canonical form, `BM_LEN` at most `BM_CAP` (R33), the BitMatrix written
(R181), `STATUS` a status word whose copy of `SEEDED` is current (R26), no steps counted before a seeding (R24, R117),
and only result events of the four emitting commands (R27). -/
structure Inv (s : State) : Prop where
  bm_canonical : Memory.wf s.bm = true
  len_le_cap : s.bmLen.toNat ≤ Config.bmCap
  cells_written : CellsWritten s
  status_word : ∃ c depr, s.status = statusWord c depr s.seeded
  unseeded_no_steps : s.seeded = false → s.k = 0
  result_ops : ∀ e ∈ s.res, e.op = 0x3#4 ∨ e.op = 0x6#4 ∨ e.op = 0x7#4 ∨ e.op = 0x8#4

/-- Two states that differ only in what no run can tell: the register before any seeding, and the cells at and above
`BM_LEN` (R181; 93 U1, U2). -/
structure SameToAnyRun (s t : State) : Prop where
  seeded_eq : s.seeded = t.seeded
  reg_eq : s.seeded = true → s.regS = t.regS
  k_eq : s.k = t.k
  len_eq : s.bmLen = t.bmLen
  cells_eq : ∀ i, i < s.bmLen.toNat → Memory.read s.bm i = Memory.read t.bm i
  status_eq : s.status = t.status
  res_eq : s.res = t.res
  port_eq : s.port = t.port

/-- Two outcomes agree: both go on, to states no run can tell apart, or both stop for the same reason. -/
def SameOutcome : Host.Outcome State Fault Refusal → Host.Outcome State Fault Refusal → Prop
  | .next s, .next t => SameToAnyRun s t
  | .fault r, .fault q => r = q
  | .refused r, .refused q => r = q
  | _, _ => False

/-- The pair of coordinates after `i` iterations of the map (R84, R88). -/
def henonOrbit (A : HenonArith) (N nbits : Nat) : Nat → A.R × A.R
  | 0 => henonInit A nbits
  | i + 1 => henonStep A (henonOrbit A N nbits i) N

/-- The index of iteration `i`, counting from 0: the map is stepped before the first read (R89, R91). -/
def walkIndex (A : HenonArith) (N nbits i : Nat) : Nat := sampleIndex A (henonOrbit A N nbits (i + 1))

/-- Every index of the walk is inside the matrix. -/
def WalkInRange (A : HenonArith) (N nbits : Nat) : Prop := ∀ i, i < nbits → walkIndex A N nbits i < N

/-- `v` is the integer the walk assembles: the bit of iteration `i` is bit `nbits − 1 − i` (R90). -/
def IsSampleValue (A : HenonArith) (m : Memory) (N nbits v : Nat) : Prop :=
  v < 2 ^ nbits ∧ ∀ i, i < nbits → Memory.read m (walkIndex A N nbits i) = some (v.testBit (nbits - 1 - i))

/-- The number a binary64 number of the model stands for. -/
def b64Val (x : B64) : ℚ := x.num * 2 ^ x.exp

/-- A value of binary64: at most 53 significant bits, and no bit below `2^-1074` (R86). There is no largest exponent
(log entry 6). -/
def IsBinary64 (v : ℚ) : Prop := ∃ m e : ℤ, |m| < 2 ^ 53 ∧ -1074 ≤ e ∧ v = m * 2 ^ e

/-- The last fraction bit of a binary64 value is 0: its significand is even where it has all 53 bits, or at the least
exponent (R86; 93 part 2 item 1). -/
def EvenFraction (v : ℚ) : Prop :=
  ∃ m e : ℤ, |m| < 2 ^ 53 ∧ -1074 ≤ e ∧ (2 ^ 52 ≤ |m| ∨ e = -1074) ∧ m % 2 = 0 ∧ v = m * 2 ^ e

/-- `r` is the exact value `w` rounded once: a binary64 value, none nearer to `w`, and of two that are equally near the one
with an even last fraction bit (R86). -/
structure IsRounding (w r : ℚ) : Prop where
  representable : IsBinary64 r
  nearest : ∀ v, IsBinary64 v → |r - w| ≤ |v - w|
  tie_even : ∀ v, IsBinary64 v → v ≠ r → |v - w| = |r - w| → EvenFraction r

/-- `trunc(v / N)`: the quotient rounded toward zero (R87). -/
def truncQuot (v : ℚ) (N : ℕ) : ℤ := if 0 ≤ v then ⌊v / N⌋ else ⌈v / N⌉

/-- `r0 = v − trunc(v / N) · N` (R87). -/
def truncRem (v : ℚ) (N : ℕ) : ℚ := v - truncQuot v N * N

/-- The bit sequence of a generator seeded with `S0`: the seed's bits, continued by the recurrence (R122). -/
def IsStream (S0 : Reg128) (sq : Nat → Bool) : Prop :=
  (∀ j, j < 128 → sq j = S0.getLsbD j) ∧
  ∀ j, sq (j + 128) = (sq j ^^ sq (j + 1) ^^ sq (j + 2) ^^ sq (j + 7))

/-- The register after `n` steps (R110, R122). -/
def regAfter (n : Nat) (S : Reg128) : Reg128 := lfsrNext^[n] S

/-- `x` is the integer of `w` draws from the register `S`, starting at step `start` counted from 0: the first bit is
the most significant (R113). -/
def IsDraw (S : Reg128) (start w x : Nat) : Prop :=
  x < 2 ^ w ∧ ∀ j, j < w → x.testBit (w - 1 - j) = lfsrOut (regAfter (start + j) S)

/-- The transfer is an `RHASH` (R139). -/
def decodesAsRhash (t : Transfer) : Bool :=
  match decode t with
  | .ok (.rhash _ _ _) => true
  | _ => false

/-- How many result events a command emits when it completes `OK` (R27). -/
def eventCount : Instr → Nat
  | .bmclr => 0
  | .bmpush _ => 0
  | .isamp _ => 1
  | .iseed => 0
  | .seed _ => 0
  | .next _ _ => 1
  | .rstream _ _ count => count
  | .rhash _ _ _ => 1

/-- The operation code of a command (R68). -/
def opcode : Instr → BitVec 4
  | .bmclr => 0x1#4
  | .bmpush _ => 0x2#4
  | .isamp _ => 0x3#4
  | .iseed => 0x4#4
  | .seed _ => 0x5#4
  | .next _ _ => 0x6#4
  | .rstream _ _ _ => 0x7#4
  | .rhash _ _ _ => 0x8#4

/-- The command writes the BitMatrix store or its length (R34). -/
def loadsMatrix : Instr → Bool
  | .bmclr | .bmpush _ => true
  | .isamp _ | .iseed | .seed _ | .next _ _ | .rstream _ _ _ | .rhash _ _ _ => false

/-- The command can write the generator: `S`, `SEEDED`, `K` (R34). -/
def drivesGenerator : Instr → Bool
  | .iseed | .seed _ | .next _ _ | .rstream _ _ _ => true
  | .bmclr | .bmpush _ | .isamp _ | .rhash _ _ _ => false

/-- The command starts a new generator instance (R117, R184). -/
def startsInstance : Instr → Bool
  | .iseed | .seed _ => true
  | .bmclr | .bmpush _ | .isamp _ | .next _ _ | .rstream _ _ _ | .rhash _ _ _ => false

end Sys2Proof.Machine
end

