-- ==== Sys2Proof/Certificates/Slice0/Obligations.lean ====
section
/-! DEFINITION. The statements for the provers, in the order of OBLIGATIONS.json. -/

open Sys2Proof Sys2Proof.Machine

/-- Reset leaves what 10_state.md R32 gives a value for. (`S` is unspecified there; see `NoRunTellsWhatWasNeverWritten`.) -/
def Obligations.ResetLeavesTheStatedValues : Prop :=
  State.reset.seeded = false ∧ State.reset.k = 0 ∧ State.reset.bmLen.toNat = 0 ∧ State.reset.status = 0#32 ∧
    State.reset.res = [] ∧ ∀ i, bmRead State.reset.bm State.reset.bmLen.toNat i = .outOfRange

/-- The reset input forgets everything inside the block (R180, R165). The model's choices in it, which no rule states: `S` is 0
after it (log entry 2) and no BM cell has a value (log entry 3), where R32 and R181 leave both unspecified; and what the host
presents next stays in the model's own field `port` (log entries 1 and 8). -/
def Obligations.ResetInputForgetsEverything : Prop :=
  ∀ (s : State) (rest : List HostInput), s.port = .reset :: rest →
    step s = .next { State.reset with port := rest }

/-- With nothing presented, nothing changes (93 U16); that a step exists then is the model's choice, log entry 1. -/
def Obligations.IdleStepChangesNothing : Prop :=
  ∀ s : State, s.port = [] → step s = .next s

/-- A step runs the decoded command (R48); taking it from `port` is the model's choice, log entry 1. -/
def Obligations.StepRunsThePresentedCommand : Prop :=
  ∀ (s : State) (t : Transfer) (rest : List HostInput) (i : Instr),
    s.port = .command t :: rest → decode t = .ok i → step s = exec i { s with port := rest }

/-- R69: a word that matches no row is rejected with `ERR_ILLEGAL` and changes only `STATUS`; the reserved operation codes,
and a 1 in a bit the format requires to be zero, match no row. -/
def Obligations.IllegalWordsAreRejected : Prop :=
  (∀ (s : State) (t : Transfer) (rest : List HostInput), s.port = .command t :: rest →
    (∀ r ∈ opcodeMap, t.cw &&& r.mask ≠ r.pattern) →
    step s = .next { s with port := rest, status := statusWord .errIllegal false s.seeded }) ∧
  (∀ w : Word, (opcField w = 0x0#4 ∨ 0x9#4 ≤ opcField w) → ∀ r ∈ opcodeMap, w &&& r.mask ≠ r.pattern) ∧
  (∀ w : Word, ∀ r ∈ opcodeMap, opcField w = opcField r.pattern → w &&& r.mask &&& 0x0FFFFFFF#32 ≠ 0#32 →
    ∀ r' ∈ opcodeMap, w &&& r'.mask ≠ r'.pattern)

/-- R68: the rows do not overlap. -/
def Obligations.OpcodeRowsDoNotOverlap : Prop :=
  ∀ (w : Word), ∀ r ∈ opcodeMap, ∀ r' ∈ opcodeMap,
    w &&& r.mask = r.pattern → w &&& r'.mask = r'.pattern → r = r'

/-- R68, R74: the decoder answers a command exactly where a row matches, and the command is that row's. -/
def Obligations.DecoderSelectsTheMatchingRow : Prop :=
  (∀ (t : Transfer) (i : Instr), decode t = .ok i →
    opcodeRow i ∈ opcodeMap ∧ t.cw &&& (opcodeRow i).mask = (opcodeRow i).pattern) ∧
  ∀ (t : Transfer), ∀ r ∈ opcodeMap, t.cw &&& r.mask = r.pattern →
    ∃ i, decode t = .ok i ∧ opcodeRow i = r

/-- R74: `decode(encode(c)) = c` for every command whose operands are in the ranges of R72. -/
def Obligations.DecodeOfEncodeIsTheCommand : Prop :=
  ∀ i : Instr, i.wf = true → decode (encode i) = .ok i

/-- R74: `encode(decode(w)) = w` for every legal word, the operand ports the command reads included. -/
def Obligations.EncodeOfDecodeIsTheWord : Prop :=
  ∀ (t : Transfer) (i : Instr), decode t = .ok i → i.wf = true ∧ (encode i).cw = t.cw ∧
    ((opcode i = 0x5#4 → (encode i).seedIn = t.seedIn) ∧
     ((opcode i = 0x7#4 ∨ opcode i = 0x8#4) → (encode i).aIn = t.aIn ∧ (encode i).bIn = t.bIn) ∧
     (opcode i = 0x7#4 → (encode i).cntIn = t.cntIn) ∧ (opcode i = 0x8#4 → (encode i).hIn = t.hIn))

/-- R60, R67: an operation reads the side operands its rule names; the value of another is irrelevant. -/
def Obligations.UnreadPortsAreIrrelevant : Prop :=
  ∀ t t' : Transfer, t.cw = t'.cw →
    (opcField t.cw = 0x5#4 → t.seedIn = t'.seedIn) →
    (opcField t.cw = 0x7#4 ∨ opcField t.cw = 0x8#4 → t.aIn = t'.aIn ∧ t.bIn = t'.bIn) →
    (opcField t.cw = 0x7#4 → t.cntIn = t'.cntIn) →
    (opcField t.cw = 0x8#4 → t.hIn = t'.hIn) → decode t = decode t'

/-- Words written out from the formats of R62 to R65 decode to the commands they stand for (95 section 5). -/
def Obligations.WordsOfTheFormatsDecode : Prop :=
  decode (bareTransfer 0x20000001#32) = .ok (.bmpush true) ∧
  decode (bareTransfer 0x30000200#32) = .ok (.isamp 512) ∧
  decode (bareTransfer 0x60000C00#32) = .ok (.next 1024 true) ∧
  decode { bareTransfer 0x70000000#32 with aIn := BitVec.allOnes 1025, bIn := 3#1025, cntIn := 1#32 } =
    .ok (.rstream (-1) 3 1)

/-- R26, R150: the fields of the status word, bits 31:6 zero, and the numbers of the seven codes. -/
def Obligations.StatusWordHasTheStatedFields : Prop :=
  (∀ (c : Code) (depr seeded : Bool),
    (statusWord c depr seeded).extractLsb' 0 4 = codeBits c ∧
    (statusWord c depr seeded).getLsbD 4 = depr ∧
    (statusWord c depr seeded).getLsbD 5 = seeded ∧
    ∀ j, 6 ≤ j → (statusWord c depr seeded).getLsbD j = false) ∧
  [Code.ok, .errParam, .errPrecond, .errUnseeded, .errIllegal, .errBmfull, .errBmindex].map codeBits =
    [0#4, 1#4, 2#4, 3#4, 4#4, 5#4, 6#4]

/-- R26, R139: after every accepted command `STATUS` holds a code of the seven, `DEPR` iff the command decoded as `RHASH`, and
the flag `SEEDED` as it stands then. -/
def Obligations.EveryCommandRewritesStatus : Prop :=
  ∀ (s u : State) (t : Transfer) (rest : List HostInput), s.port = .command t :: rest → step s = .next u →
    ∃ c, u.status = statusWord c (decodesAsRhash t) u.seeded

/-- R155: a command that completes with a code other than `OK` writes `STATUS` and nothing else. -/
def Obligations.RejectionWritesOnlyStatus : Prop :=
  ∀ (s u : State) (t : Transfer) (rest : List HostInput), s.port = .command t :: rest → step s = .next u →
    statusCode u.status ≠ 0#4 →
    ∃ c, codeBits c = statusCode u.status ∧
      u = { s with port := rest, status := statusWord c (decodesAsRhash t) s.seeded }

/-- R158: re-issuing a rejected command gives the same rejection. -/
def Obligations.RejectionRepeats : Prop :=
  ∀ (i : Instr) (s t : State), exec i s = .next t → statusCode t.status ≠ 0#4 → exec i t = .next t

/-- R80: `BMCLR` empties the matrix and touches no cell; nothing can be sampled from it then. -/
def Obligations.BmclrEmptiesTheMatrix : Prop :=
  (∀ t : Transfer, t.cw = 0x10000000#32 → decode t = .ok .bmclr) ∧
  (∀ t : Transfer, opcField t.cw = 0x1#4 → t.cw ≠ 0x10000000#32 → decode t = .error .reservedBits) ∧
  ∀ s : State, ∃ t, exec .bmclr s = .next t ∧
    t = { s with bmLen := 0#21, status := statusWord .ok false s.seeded } ∧
    (∀ nbits, 1 ≤ nbits → nbits ≤ 512 →
      exec (.isamp nbits) t = .next { t with status := statusWord .errPrecond false t.seeded }) ∧
    exec .iseed t = .next { t with status := statusWord .errPrecond false t.seeded }

/-- R81: `BMPUSH b` appends one cell below the capacity and is rejected at it; after N pushes onto an empty matrix, cell i is
element i. -/
def Obligations.BmpushAppendsOneCell : Prop :=
  (∀ (t : Transfer) (b : Bool), t.cw = 0x20000000#32 + (BitVec.ofBool b).setWidth 32 → decode t = .ok (.bmpush b)) ∧
  (∀ (b : Bool) (s : State), s.bmLen.toNat = 2 ^ 20 →
    exec (.bmpush b) s = .next { s with status := statusWord .errBmfull false s.seeded }) ∧
  (∀ (b : Bool) (s : State), s.bmLen.toNat < 2 ^ 20 →
    ∃ t, exec (.bmpush b) s = .next t ∧
      t = { s with bm := t.bm, bmLen := t.bmLen, status := statusWord .ok false s.seeded } ∧
      t.bmLen.toNat = s.bmLen.toNat + 1 ∧ Memory.read t.bm s.bmLen.toNat = some b ∧
      ∀ a, a ≠ s.bmLen.toNat → Memory.read t.bm a = Memory.read s.bm a) ∧
  ∀ (bits : List Bool) (s : State), s.bmLen.toNat = 0 → bits.length ≤ 2 ^ 20 →
    ∃ t, execAll (bits.map .bmpush) s = .next t ∧ t.bmLen.toNat = bits.length ∧
      ∀ i (h : i < bits.length), Memory.read t.bm i = some bits[i]

/-- The model's own stops (log entries 3 and 11): a push above the capacity, and a sample, of `ISAMP` or of `ISEED`, whose walk
comes to a cell nothing has written. No state with `Inv` shows any. -/
def Obligations.StopsOutsideTheInvariant : Prop :=
  (∀ (b : Bool) (s : State), 2 ^ 20 < s.bmLen.toNat → exec (.bmpush b) s = .fault .bmAddress) ∧
  (∀ (A : HenonArith) (nbits j : Nat) (s : State), nbits ≤ 512 → j < nbits → 0 < s.bmLen.toNat →
    (∀ i, i < j → walkIndex A s.bmLen.toNat nbits i < s.bmLen.toNat ∧
      ∃ b, Memory.read s.bm (walkIndex A s.bmLen.toNat nbits i) = some b) →
    walkIndex A s.bmLen.toNat nbits j < s.bmLen.toNat →
    Memory.read s.bm (walkIndex A s.bmLen.toNat nbits j) = none →
    isampWith A nbits s = .fault .bmCellUnwritten) ∧
  ∀ (A : HenonArith) (j : Nat) (s : State), j < 128 → 0 < s.bmLen.toNat →
    (∀ i, i < j → walkIndex A s.bmLen.toNat 128 i < s.bmLen.toNat ∧
      ∃ b, Memory.read s.bm (walkIndex A s.bmLen.toNat 128 i) = some b) →
    walkIndex A s.bmLen.toNat 128 j < s.bmLen.toNat →
    Memory.read s.bm (walkIndex A s.bmLen.toNat 128 j) = none →
    iseedWith A s = .fault .bmCellUnwritten

/-- R83, R156: the sampler's checks, in their order. -/
def Obligations.SamplerValidatesInOrder : Prop :=
  (∀ (nbits : Nat) (s : State), (nbits < 1 ∨ 512 < nbits) →
    exec (.isamp nbits) s = .next { s with status := statusWord .errParam false s.seeded }) ∧
  (∀ (nbits : Nat) (s : State), 1 ≤ nbits → nbits ≤ 512 → s.bmLen.toNat = 0 →
    exec (.isamp nbits) s = .next { s with status := statusWord .errPrecond false s.seeded }) ∧
  ∀ s : State, s.bmLen.toNat = 0 →
    exec .iseed s = .next { s with status := statusWord .errPrecond false s.seeded }

/-- R90 to R92: where the walk stays inside the matrix, `ISAMP` emits the integer whose bit `nbits − 1 − i` is the cell at the
index of iteration i; under every arithmetic, and so on this machine. -/
def Obligations.IsampEmitsTheSampledInteger : Prop :=
  (∀ (A : HenonArith) (nbits v : Nat) (s : State), 1 ≤ nbits → nbits ≤ 512 → 0 < s.bmLen.toNat →
    WalkInRange A s.bmLen.toNat nbits → IsSampleValue A s.bm s.bmLen.toNat nbits v →
    isampWith A nbits s = .next { s with
      res := s.res ++ [⟨0x3#4, BitVec.ofNat 1024 v⟩], status := statusWord .ok false s.seeded }) ∧
  ∀ (nbits v : Nat) (s : State), 1 ≤ nbits → nbits ≤ 512 → 0 < s.bmLen.toNat →
    WalkInRange henonArith s.bmLen.toNat nbits → IsSampleValue henonArith s.bm s.bmLen.toNat nbits v →
    exec (.isamp nbits) s = .next { s with
      res := s.res ++ [⟨0x3#4, BitVec.ofNat 1024 v⟩], status := statusWord .ok false s.seeded }

/-- R89, R94 (d), R157: an index that is not below `BM_LEN`, after a walk over written cells, ends `ISAMP` with `ERR_BMINDEX` and
no other effect, under every arithmetic. (`ISEED`: `IseedLoadsTheSampledSeed`.) -/
def Obligations.IndexOutOfTheMatrixIsRejected : Prop :=
  ∀ (A : HenonArith) (nbits j : Nat) (s : State), nbits ≤ 512 → j < nbits → 0 < s.bmLen.toNat → CellsWritten s →
    (∀ i, i < j → walkIndex A s.bmLen.toNat nbits i < s.bmLen.toNat) →
    s.bmLen.toNat ≤ walkIndex A s.bmLen.toNat nbits j →
    isampWith A nbits s = .next { s with status := statusWord .errBmindex false s.seeded }

/-- R94 (e), (f): the index of `ISAMP 1` is 3 mod N in both arithmetics of the spec and under both conventions of "mod", and so
`ISAMP 1` completes on this machine; the first index of `ISAMP 2` is ⌊2.6 mod N⌋. R88: the second index of `ISAMP 2`, for N at
least 3, is that of −8.164 mod N (95 V-I3), which it is only where the second coordinate comes from the old first one. -/
def Obligations.SmallestSamplesIndices : Prop :=
  (∀ (mode : HenonMod) (N : Nat), 0 < N →
    walkIndex (binary64 mode) N 1 0 = 3 % N ∧ walkIndex (exactArith mode) N 1 0 = 3 % N ∧
    walkIndex (binary64 mode) N 2 0 = 2 % N ∧ walkIndex (exactArith mode) N 2 0 = 2 % N) ∧
  (∀ N : Nat, 3 ≤ N →
    walkIndex (exactArith .trunc) N 2 1 = 8 % N ∧ walkIndex (exactArith .floored) N 2 1 = N - 1 - 8 % N ∧
    walkIndex (binary64 .trunc) N 2 1 = 8 % N ∧
    (N ≤ 2 ^ 20 → walkIndex (binary64 .floored) N 2 1 = N - 1 - 8 % N)) ∧
  ∀ (s : State) (b : Bool), 0 < s.bmLen.toNat → Memory.read s.bm (3 % s.bmLen.toNat) = some b →
    exec (.isamp 1) s = .next { s with
      res := s.res ++ [⟨0x3#4, BitVec.ofNat 1024 b.toNat⟩], status := statusWord .ok false s.seeded }

/-- R94 (a) under `TRUNC`, in both arithmetics: a matrix of one cell gives that bit `nbits` times over. -/
def Obligations.OneCellMatrixRepeatsItsBit : Prop :=
  ∀ (A : HenonArith) (nbits : Nat) (s : State) (b : Bool), (A = binary64 .trunc ∨ A = exactArith .trunc) →
    1 ≤ nbits → nbits ≤ 512 → s.bmLen.toNat = 1 → Memory.read s.bm 0 = some b →
    isampWith A nbits s = .next { s with
      res := s.res ++ [⟨0x3#4, BitVec.ofNat 1024 (if b then 2 ^ nbits - 1 else 0)⟩],
      status := statusWord .ok false s.seeded }

/-- R93: two `ISAMP` of one width with no loading command between them emit the same value, whatever other commands run
between. -/
def Obligations.SamplingIsDeterministic : Prop :=
  ∀ (nbits : Nat) (between : List Instr) (s t u : State), (∀ i ∈ between, loadsMatrix i = false) →
    exec (.isamp nbits) s = .next t → execAll between t = .next u →
    ∃ w events, exec (.isamp nbits) u = .next w ∧ statusCode w.status = statusCode t.status ∧
      t.res = s.res ++ events ∧ w.res = u.res ++ events

/-- R95: an empty matrix, or an index outside the matrix, is rejected; where the walk of 128 iterations stays inside the matrix, `ISEED` loads the sampled integer; and it is `ISAMP 128`
followed by `SEED` of the value, without the value in `RES`. -/
def Obligations.IseedLoadsTheSampledSeed : Prop :=
  (∀ t : Transfer, t.cw = 0x40000000#32 → decode t = .ok .iseed) ∧
  (∀ s : State, s.bmLen.toNat = 0 →
    exec .iseed s = .next { s with status := statusWord .errPrecond false s.seeded }) ∧
  (∀ s : State, exec .iseed s = iseedWith henonArith s) ∧
  (∀ (A : HenonArith) (j : Nat) (s : State), j < 128 → 0 < s.bmLen.toNat → CellsWritten s →
    (∀ i, i < j → walkIndex A s.bmLen.toNat 128 i < s.bmLen.toNat) →
    s.bmLen.toNat ≤ walkIndex A s.bmLen.toNat 128 j →
    iseedWith A s = .next { s with status := statusWord .errBmindex false s.seeded }) ∧
  (∀ (v : Nat) (s : State), 0 < s.bmLen.toNat → WalkInRange henonArith s.bmLen.toNat 128 →
    IsSampleValue henonArith s.bm s.bmLen.toNat 128 v →
    exec .iseed s = .next { s with
      regS := BitVec.ofNat 128 v, seeded := true, k := 0, status := statusWord .ok false true }) ∧
  ∀ s t : State, exec (.isamp 128) s = .next t → statusCode t.status = 0#4 →
    ∃ v : Nat, v < 2 ^ 128 ∧ t.res = s.res ++ [⟨0x3#4, BitVec.ofNat 1024 v⟩] ∧
      exec .iseed s = exec (.seed (BitVec.ofNat 128 v)) s

/-- R187: on an all-zero BitMatrix `ISEED` loads 0, whatever the walk, under every arithmetic. -/
def Obligations.BlackFrameLoadsTheZeroSeed : Prop :=
  ∀ (A : HenonArith) (s : State), 0 < s.bmLen.toNat →
    (∀ i, i < s.bmLen.toNat → Memory.read s.bm i = some false) → WalkInRange A s.bmLen.toNat 128 →
    iseedWith A s = .next { s with
      regS := 0#128, seeded := true, k := 0, status := statusWord .ok false true }

/-- R87, R42, R96: the reduced coordinate's index is below N under `TRUNC` and in exact arithmetic, and at most N under `FLOORED`
in binary64. -/
def Obligations.ReducedIndexIsBounded : Prop :=
  (∀ (v : B64) (N : Nat), 0 < N → b64FloorAbs (b64Mod .trunc v N) < N) ∧
  (∀ (mode : HenonMod) (v : Rat) (N : Nat), 0 < N → ratFloorAbs (ratMod mode v N) < N) ∧
  ∀ (v : B64) (N : Nat), 0 < N → N ≤ 2 ^ 20 → b64FloorAbs (b64Mod .floored v N) ≤ N

/-- R111: `SEED` loads the register with any 128-bit value and starts a new instance. -/
def Obligations.SeedStartsANewInstance : Prop :=
  (∀ t : Transfer, t.cw = 0x50000000#32 → decode t = .ok (.seed t.seedIn)) ∧
  ∀ (seed : Reg128) (s : State),
    exec (.seed seed) s = .next { s with
      regS := seed, seeded := true, k := 0, status := statusWord .ok false true }

/-- R110: one step, by bits, and the `NEXT 1, 0` that applies it once. -/
def Obligations.OneStepOfTheRegister : Prop :=
  (∀ S : Reg128,
    (lfsrNext S).getLsbD 127 = (S.getLsbD 0 ^^ S.getLsbD 1 ^^ S.getLsbD 2 ^^ S.getLsbD 7) ∧
    (∀ i, i ≤ 126 → (lfsrNext S).getLsbD i = S.getLsbD (i + 1)) ∧ lfsrOut S = S.getLsbD 1) ∧
  ∀ s : State, s.seeded = true → exec (.next 1 false) s = .next { s with
    regS := lfsrNext s.regS, k := s.k + 1,
    res := s.res ++ [⟨0x6#4, BitVec.ofNat 1024 (s.regS.getLsbD 1).toNat⟩],
    status := statusWord .ok false true }

/-- R113, R115, R116: `NEXT n, e`: the checks in their order; else `n` steps, the bit of the first step most significant, the top
bit forced when `e` is set. -/
def Obligations.NextDrawsAnInteger : Prop :=
  (∀ (n : Nat) (e : Bool), n ≤ 2047 → ∀ t : Transfer,
    t.cw = 0x60000000#32 + ((BitVec.ofBool e).setWidth 32 <<< 11) + BitVec.ofNat 32 n →
    decode t = .ok (.next n e)) ∧
  (∀ (n : Nat) (e : Bool) (s : State), (n < 1 ∨ 1024 < n) →
    exec (.next n e) s = .next { s with status := statusWord .errParam false s.seeded }) ∧
  (∀ (n : Nat) (e : Bool) (s : State), 1 ≤ n → n ≤ 1024 → s.seeded = false →
    exec (.next n e) s = .next { s with status := statusWord .errUnseeded false s.seeded }) ∧
  ∀ (n : Nat) (e : Bool) (s : State), 1 ≤ n → n ≤ 1024 → s.seeded = true →
    ∃ v, v < 2 ^ n ∧
      (∀ j, j < n → v.testBit (n - 1 - j) = ((e && j == 0) || lfsrOut (regAfter j s.regS))) ∧
      exec (.next n e) s = .next { s with
        regS := regAfter n s.regS, k := s.k + n, res := s.res ++ [⟨0x6#4, BitVec.ofNat 1024 v⟩],
        status := statusWord .ok false true }

/-- R122: which bits come out: the draws of a generator are its seed's bit sequence extended by the recurrence, from bit 1 on, and
the register after k steps is the sequence from bit k on. -/
def Obligations.DrawsFollowTheSeedsBitSequence : Prop :=
  (∀ (S0 : Reg128) (sq : Nat → Bool), IsStream S0 sq → ∀ k : Nat,
    (∀ i, i < 128 → (regAfter k S0).getLsbD i = sq (k + i)) ∧ lfsrOut (regAfter k S0) = sq (k + 1)) ∧
  ∀ (seed : Reg128) (sq : Nat → Bool) (n : Nat) (s t : State), IsStream seed sq → 1 ≤ n → n ≤ 1024 →
    exec (.seed seed) s = .next t →
    ∃ u v, exec (.next n false) t = .next u ∧ u.res = t.res ++ [⟨0x6#4, BitVec.ofNat 1024 v⟩] ∧ v < 2 ^ n ∧
      (∀ j, 1 ≤ j → j ≤ n → v.testBit (n - j) = sq j) ∧ ∀ i, i < 128 → u.regS.getLsbD i = sq (n + i)

/-- R114: with the flag set the value is the plain one with bit n − 1 forced, hence in [2^(n−1), 2^n − 1]; the register and K are
the same. -/
def Obligations.EnforceForcesOnlyTheTopBit : Prop :=
  ∀ (n : Nat) (s : State), 1 ≤ n → n ≤ 1024 → s.seeded = true →
    ∃ t u v w, exec (.next n true) s = .next t ∧ exec (.next n false) s = .next u ∧
      t.res = s.res ++ [⟨0x6#4, BitVec.ofNat 1024 v⟩] ∧ u.res = s.res ++ [⟨0x6#4, BitVec.ofNat 1024 w⟩] ∧
      v.testBit (n - 1) = true ∧ (∀ j, j ≠ n - 1 → v.testBit j = w.testBit j) ∧
      2 ^ (n - 1) ≤ v ∧ v < 2 ^ n ∧ w < 2 ^ n ∧ t = { u with res := t.res }

/-- R118: two draws in a row are one draw of the sum of their widths; with `enforce` the register still is, and
the value need not be (the all-zero register shows it). -/
def Obligations.DrawsConcatenate : Prop :=
  (∀ (n1 n2 : Nat) (s : State), 1 ≤ n1 → 1 ≤ n2 → n1 + n2 ≤ 1024 → s.seeded = true →
    ∃ t u v1 v2, exec (.next n1 false) s = .next t ∧ exec (.next n2 false) t = .next u ∧
      t.res = s.res ++ [⟨0x6#4, BitVec.ofNat 1024 v1⟩] ∧ u.res = t.res ++ [⟨0x6#4, BitVec.ofNat 1024 v2⟩] ∧
      v1 < 2 ^ n1 ∧ v2 < 2 ^ n2 ∧
      exec (.next (n1 + n2) false) s = .next { u with
        res := s.res ++ [⟨0x6#4, BitVec.ofNat 1024 ((v1 <<< n2) ||| v2)⟩] }) ∧
  (∀ (n1 n2 : Nat) (e1 e2 e3 : Bool) (s t u w : State), n1 + n2 ≤ 1024 → 1 ≤ n1 → 1 ≤ n2 → s.seeded = true →
    exec (.next n1 e1) s = .next t → exec (.next n2 e2) t = .next u → exec (.next (n1 + n2) e3) s = .next w →
    w.regS = u.regS ∧ w.k = u.k) ∧
  ∀ s : State, s.seeded = true → s.regS = 0#128 →
    ∃ t u w v1 v2 v, exec (.next 3 true) s = .next t ∧ exec (.next 5 true) t = .next u ∧
      exec (.next 8 true) s = .next w ∧ t.res = s.res ++ [⟨0x6#4, BitVec.ofNat 1024 v1⟩] ∧
      u.res = t.res ++ [⟨0x6#4, BitVec.ofNat 1024 v2⟩] ∧ w.res = s.res ++ [⟨0x6#4, BitVec.ofNat 1024 v⟩] ∧
      v1 < 2 ^ 3 ∧ v2 < 2 ^ 5 ∧ v < 2 ^ 8 ∧ v ≠ (v1 <<< 5) ||| v2

/-- R120: the all-zero register is absorbing: draws emit 0, or only the forced top bit, and no command but `SEED` and `ISEED`
takes the register out of it. -/
def Obligations.ZeroRegisterIsAbsorbing : Prop :=
  lfsrNext 0#128 = 0#128 ∧ lfsrOut 0#128 = false ∧
  (∀ (n : Nat) (e : Bool) (s : State), 1 ≤ n → n ≤ 1024 → s.seeded = true → s.regS = 0#128 →
    exec (.next n e) s = .next { s with
      k := s.k + n, res := s.res ++ [⟨0x6#4, BitVec.ofNat 1024 (if e then 2 ^ (n - 1) else 0)⟩],
      status := statusWord .ok false true }) ∧
  ∀ (cmds : List Instr) (s t : State), (∀ i ∈ cmds, startsInstance i = false) → s.regS = 0#128 →
    execAll cmds s = .next t → t.regS = 0#128

/-- R121: the step is a bijection with the inverse given there, so a non-zero register stays non-zero until a new seeding. -/
def Obligations.StepIsABijection : Prop :=
  (∀ S : Reg128, S.getLsbD 0 = ((lfsrNext S).getLsbD 127 ^^ (lfsrNext S).getLsbD 0 ^^ (lfsrNext S).getLsbD 1 ^^
      (lfsrNext S).getLsbD 6) ∧ ∀ i, i ≤ 126 → S.getLsbD (i + 1) = (lfsrNext S).getLsbD i) ∧
  Function.Bijective lfsrNext ∧
  ∀ (cmds : List Instr) (s t : State), (∀ i ∈ cmds, startsInstance i = false) → s.regS ≠ 0#128 →
    execAll cmds s = .next t → t.regS ≠ 0#128

/-- R117: the state machine of the generator: where each command that completes `OK` takes `(SEEDED, K)`; a draw completes only
in a seeded state; another code leaves the state where it was. -/
def Obligations.GeneratorStateMachine : Prop :=
  ∀ (i : Instr) (s t : State), exec i s = .next t →
    (statusCode t.status ≠ 0#4 → t.seeded = s.seeded ∧ t.k = s.k) ∧
    (statusCode t.status = 0#4 →
      match i with
      | .seed _ | .iseed => t.seeded = true ∧ t.k = 0
      | .next n _ => s.seeded = true ∧ t.seeded = true ∧ t.k = s.k + n
      | .rstream a b count => s.seeded = true ∧ t.seeded = true ∧ t.k = s.k + count * drawWidth a b
      | .bmclr | .bmpush _ | .isamp _ | .rhash _ _ _ => t.seeded = s.seeded ∧ t.k = s.k)

/-- R131, R134, R136: `RSTREAM`: the checks in their order; else `count` draws of the width of R132 and R133, each reduced by
`b − a + 1`, one event each in draw order. -/
def Obligations.RstreamDrawsABatch : Prop :=
  (∀ t : Transfer, t.cw = 0x70000000#32 → decode t = .ok (.rstream t.aIn.toInt t.bIn.toInt t.cntIn.toNat)) ∧
  (∀ (a b : Int) (count : Nat) (s : State), (a < 0 ∨ b < 0 ∨ a > b) →
    exec (.rstream a b count) s = .next { s with status := statusWord .errParam false s.seeded }) ∧
  (∀ (a b : Int) (count : Nat) (s : State), 0 ≤ a → a ≤ b → 1 ≤ count → 1024 < drawWidth a b →
    exec (.rstream a b count) s = .next { s with status := statusWord .errParam false s.seeded }) ∧
  (∀ (a b : Int) (count : Nat) (s : State), 0 ≤ a → a ≤ b → (1 ≤ count → drawWidth a b ≤ 1024) → s.seeded = false →
    exec (.rstream a b count) s = .next { s with status := statusWord .errUnseeded false s.seeded }) ∧
  ∀ (a b : Int) (count : Nat) (s : State), 0 ≤ a → a ≤ b → (1 ≤ count → drawWidth a b ≤ 1024) → s.seeded = true →
    ∃ x : Nat → Nat, (∀ j, j < count → IsDraw s.regS (j * drawWidth a b) (drawWidth a b) (x j)) ∧
      exec (.rstream a b count) s = .next { s with
        regS := regAfter (count * drawWidth a b) s.regS, k := s.k + count * drawWidth a b,
        res := s.res ++ (List.range count).map
          (fun j => ⟨0x7#4, BitVec.ofInt 1024 (a + (x j : Int) % (b - a + 1))⟩),
        status := statusWord .ok false true }

/-- R135: a batch of `count ≥ 1` is `count` batches of one, and is `count` plain draws whose results the host reduces; an empty
batch changes only `STATUS`, and still needs a seeded generator. -/
def Obligations.BatchIsTheSequenceOfItsDraws : Prop :=
  (∀ (a b : Int) (count : Nat) (s : State), 0 ≤ a → a ≤ b → drawWidth a b ≤ 1024 → s.seeded = true → 1 ≤ count →
    ∃ (t u : State) (xs : List Nat), exec (.rstream a b count) s = .next t ∧
      execAll (List.replicate count (.rstream a b 1)) s = .next t ∧
      execAll (List.replicate count (.next (drawWidth a b) false)) s = .next u ∧
      xs.length = count ∧ u.res = s.res ++ xs.map (fun x => ⟨0x6#4, BitVec.ofNat 1024 x⟩) ∧
      (∀ x ∈ xs, x < 2 ^ drawWidth a b) ∧
      t = { u with
        res := s.res ++ xs.map (fun x => ⟨0x7#4, BitVec.ofInt 1024 (a + (x : Int) % (b - a + 1))⟩) }) ∧
  ∀ (a b : Int) (s : State), 0 ≤ a → a ≤ b →
    exec (.rstream a b 0) s =
      .next { s with status := if s.seeded then statusWord .ok false true else statusWord .errUnseeded false false }

/-- R132, R133, R136: the draw width is the number of bits of `b − a`, at least 1, and never above 1024 for bounds that `A_IN` and
`B_IN` can carry. -/
def Obligations.DrawWidthIsTheBitLength : Prop :=
  (∀ a b : Int, a < b → ((2 ^ (drawWidth a b - 1) : Nat) : Int) ≤ b - a ∧ b - a < ((2 ^ drawWidth a b : Nat) : Int)) ∧
  (∀ a : Int, drawWidth a a = 1) ∧
  ∀ a b : Int, 0 ≤ a → a ≤ b → fitsBound b = true → drawWidth a b ≤ 1024

/-- R133: on the zero-width interval every value is `a`, and one bit is drawn for each. -/
def Obligations.ZeroWidthIntervalDrawsOneBit : Prop :=
  ∀ (a : Int) (count : Nat) (s : State), 0 ≤ a → s.seeded = true →
    exec (.rstream a a count) s = .next { s with
      regS := regAfter count s.regS, k := s.k + count,
      res := s.res ++ List.replicate count ⟨0x7#4, BitVec.ofInt 1024 a⟩, status := statusWord .ok false true }

/-- R138: `RHASH` reduces the digest by `b − a + 1` and leaves the generator alone; `DEPR` comes with either code. -/
def Obligations.RhashReducesTheDigest : Prop :=
  (∀ t : Transfer, t.cw = 0x80000000#32 → decode t = .ok (.rhash t.aIn.toInt t.bIn.toInt t.hIn.toNat)) ∧
  (∀ (a b : Int) (h : Nat) (s : State), (a < 0 ∨ b < 0 ∨ a > b) →
    exec (.rhash a b h) s = .next { s with status := statusWord .errParam true s.seeded }) ∧
  ∀ (a b : Int) (h : Nat) (s : State), 0 ≤ a → a ≤ b →
    exec (.rhash a b h) s = .next { s with
      res := s.res ++ [⟨0x8#4, BitVec.ofInt 1024 (a + (h : Int) % (b - a + 1))⟩],
      status := statusWord .ok true s.seeded }

/-- R142: every value a range command emits is in `[a, b]`. -/
def Obligations.RangeResultsStayInTheInterval : Prop :=
  ∀ (i : Instr) (a b : Int) (s t : State), i.wf = true →
    ((∃ count, i = .rstream a b count) ∨ ∃ h, i = .rhash a b h) → exec i s = .next t →
    ∃ events : List Event, t.res = s.res ++ events ∧
      ∀ e ∈ events, a ≤ (e.value.toNat : Int) ∧ (e.value.toNat : Int) ≤ b

/-- The invariant holds at reset. -/
def Obligations.InvariantHoldsAtReset : Prop := Inv State.reset

/-- R33, R181, R26: every step keeps the invariant. -/
def Obligations.EveryStepKeepsTheInvariant : Prop :=
  ∀ s t : State, Inv s → step s = .next t → Inv t

/-- R193, R157: from a state with the invariant every step goes on: no command stops the block. -/
def Obligations.NoStepStopsUnderTheInvariant : Prop :=
  ∀ s : State, Inv s → ∃ t, step s = .next t

/-- R181: no run can tell what `S` held before the first seeding, or what a cell at or above `BM_LEN` holds. So nothing rests on
the reset value of `S` this model names (log entry 2). -/
def Obligations.NoRunTellsWhatWasNeverWritten : Prop :=
  (∀ s t : State, SameToAnyRun s t → SameOutcome (step s) (step t)) ∧
  ∀ (cmds : List Transfer) (s t : State), SameToAnyRun s t →
    ∀ (codes : List (BitVec 4)) (s' : State), runCommands cmds s = .next (codes, s') →
      ∃ t', runCommands cmds t = .next (codes, t') ∧ visible s' = visible t'

/-- R34: which command touches which state; every cell other than the one a push writes reads as before. -/
def Obligations.CommandsTouchOnlyTheirState : Prop :=
  ∀ (i : Instr) (s t : State), exec i s = .next t →
    t.port = s.port ∧
    (drivesGenerator i = false → t.regS = s.regS ∧ t.seeded = s.seeded ∧ t.k = s.k) ∧
    (startsInstance i = false → t.seeded = s.seeded) ∧
    (s.seeded = true → t.seeded = true) ∧
    (loadsMatrix i = false → t.bm = s.bm ∧ t.bmLen = s.bmLen) ∧
    (∀ a, (∀ b, i = .bmpush b → a ≠ s.bmLen.toNat) → Memory.read t.bm a = Memory.read s.bm a) ∧
    (eventCount i = 0 → t.res = s.res)

/-- R27: a command that completes `OK` appends its number of events under its own operation code, and no other command appends
or removes any. -/
def Obligations.ResultStreamOnlyGrows : Prop :=
  ∀ (i : Instr) (s t : State), exec i s = .next t →
    ∃ events : List Event, t.res = s.res ++ events ∧ (∀ e ∈ events, e.op = opcode i) ∧
      events.length = if statusCode t.status = 0#4 then eventCount i else 0

/-- R193, R194: a run from a state with the invariant ends, with one completion code for each command. -/
def Obligations.EveryRunEndsWithOneCodePerCommand : Prop :=
  ∀ (cmds : List Transfer) (s : State), Inv s →
    ∃ codes t, runCommands cmds s = .next (codes, t) ∧ codes.length = cmds.length ∧ Inv t ∧
      ∀ c ∈ codes, c ≤ 6#4

/-- R73, R183 (a): `-IBR` loads the image's bits in order and then seeds from them, whatever the store held. -/
def Obligations.ImageSeedingLoadsThenSeeds : Prop :=
  ∀ (bits : List Bool) (s : State), bits.length ≤ 2 ^ 20 →
    ∃ u, execAll (cliImageSeed bits) s = exec .iseed u ∧ u.bmLen.toNat = bits.length ∧
      (∀ i (h : i < bits.length), Memory.read u.bm i = some bits[i]) ∧
      u = { s with bm := u.bm, bmLen := u.bmLen, status := statusWord .ok false s.seeded }

/-- R101, R104: the external cursor seed source: an `nbytes` outside [16, 32] is rejected, and a completed run's top bit is 1. -/
def Obligations.CursorSeedHasItsTopBitSet : Prop :=
  ∀ (nbytes : Nat) (polls : List CursorSample),
    ((nbytes < 16 ∨ 32 < nbytes) ↔ cursorSeed nbytes polls = .rejected) ∧
    ∀ v, cursorSeed nbytes polls = .seed v →
      2 ^ (8 * nbytes - 1) ≤ v ∧ v < 2 ^ (8 * nbytes) ∧ v.testBit (8 * nbytes - 1) = true

/-- R85, 93 U6: the block as a function of the open arithmetic. Only the two sampling commands depend on it, and the machine
under the names the host fixes is the one at `henonArith`, the decided default (92 D9; log entry 5). -/
def Obligations.MachineIsAnInstanceOfItsArithmetic : Prop :=
  (∀ (A : HenonArith) (i : Instr) (s : State),
    execWith A i s =
      match i with
      | .isamp nbits => isampWith A nbits s
      | .iseed => iseedWith A s
      | j => exec j s) ∧
  (∀ (A : HenonArith) (s : State) (t : Transfer) (rest : List HostInput) (i : Instr),
    s.port = .command t :: rest → decode t = .ok i → stepWith A s = execWith A i { s with port := rest }) ∧
  (∀ (i : Instr) (s : State), exec i s = execWith henonArith i s) ∧
  (∀ s : State, step s = stepWith henonArith s) ∧ Sys2Proof.core = coreWith henonArith

/-- R85: nothing is assumed of the arithmetic: whatever it is, every step of the block from a state with the invariant goes on
and keeps the invariant, and no step tells what was never written (R181, R193). -/
def Obligations.EveryArithmeticKeepsTheInvariant : Prop :=
  (∀ (A : HenonArith) (s : State), Inv s → ∃ t, stepWith A s = .next t ∧ Inv t) ∧
  ∀ (A : HenonArith) (s t : State), SameToAnyRun s t → SameOutcome (stepWith A s) (stepWith A t)

/-- R84, R88, R89: the indices of a walk are the integer parts of the magnitudes of the first coordinates of the recurrence, both
coordinates updated from the old pair, the initial pair never read; under every arithmetic. -/
def Obligations.WalkFollowsTheHenonRecurrence : Prop :=
  ∀ (A : HenonArith) (N nbits : Nat) (x y : Nat → A.R),
    x 0 = A.ofNat (nbits - 1) → y 0 = A.ofNat (nbits + 1) →
    (∀ i, x (i + 1) = A.rmod (A.radd (A.rsub A.c1 (A.rmul A.cA (A.rmul (x i) (x i)))) (y i)) N) →
    (∀ i, y (i + 1) = A.rmul A.cB (x i)) →
    ∀ i, walkIndex A N nbits i = A.rfloorabs (x (i + 1))

/-- R86: the operations of `BINARY64` give the binary64 value nearest the exact result, ties to the one with an even last fraction
bit, each rounded once; the constants 1.4 and 0.3 are the nearest values; whole numbers up to 2^53 and ⌊|v|⌋ are exact. That
there is no largest exponent is the model's (log entry 6). -/
def Obligations.Binary64RoundsToNearestEven : Prop :=
  (∀ x : B64, IsRounding (b64Val x) (b64Val (b64Round x))) ∧
  (∀ x y : B64, IsRounding (b64Val x * b64Val y) (b64Val (b64Mul x y)) ∧
    IsRounding (b64Val x + b64Val y) (b64Val (b64Add x y)) ∧
    IsRounding (b64Val x - b64Val y) (b64Val (b64Sub x y))) ∧
  (∀ k : ℕ, k ≤ 2 ^ 53 → b64Val (b64OfNat k) = k) ∧
  (∀ x : B64, (b64FloorAbs x : ℤ) = ⌊|b64Val x|⌋) ∧
  ∀ mode : HenonMod, b64Val (binary64 mode).c1 = 1 ∧ IsRounding (7 / 5) (b64Val (binary64 mode).cA) ∧
    IsRounding (3 / 10) (b64Val (binary64 mode).cB)

/-- R87: `TRUNC` is r0 = v − trunc(v / N) · N, exact, a binary64 value where v is one; `FLOORED` adds N to a negative r0, in one
rounded addition in binary64 and exactly in exact arithmetic. -/
def Obligations.ReductionFollowsTheConvention : Prop :=
  (∀ (v : ℚ) (N : ℕ), 0 < N → |truncRem v N| < N ∧ 0 ≤ truncRem v N * v) ∧
  (∀ (v : B64) (N : ℕ), 0 < N →
    b64Val (b64Mod .trunc v N) = truncRem (b64Val v) N ∧
    (0 ≤ truncRem (b64Val v) N → b64Val (b64Mod .floored v N) = truncRem (b64Val v) N) ∧
    (N ≤ 2 ^ 53 → truncRem (b64Val v) N < 0 →
      IsRounding (truncRem (b64Val v) N + N) (b64Val (b64Mod .floored v N))) ∧
    (N ≤ 2 ^ 53 → IsBinary64 (b64Val v) → IsBinary64 (truncRem (b64Val v) N))) ∧
  ∀ (v : ℚ) (N : ℕ), 0 < N →
    ratMod .trunc v N = truncRem v N ∧
    ratMod .floored v N = if 0 ≤ truncRem v N then truncRem v N else truncRem v N + N
end

