-- ==== Sys2Proof/Laws/Memory.lean ====
section
/-! SUPPORT. The laws of the BM store: read after write, and the canonical form kept by every memory operation. -/

namespace Sys2Proof.Machine

@[simp] theorem memory_read_nil (i : Nat) : Memory.read [] i = none := rfl

@[simp] theorem memory_read_cons (j i : Nat) (b : Bool) (rest : Memory) :
    Memory.read ((j, b) :: rest) i = if j = i then some b else Memory.read rest i := rfl

/-- A cell reads as it was last written; every other cell reads as before. -/
theorem memory_read_write (m : Memory) (i a : Nat) (b : Bool) :
    Memory.read (Memory.write m i b) a = if a = i then some b else Memory.read m a := by
  induction m with
  | nil => simp [Memory.write, eq_comm]
  | cons c rest ih =>
    obtain ⟨j, d⟩ := c
    simp only [Memory.write]
    split
    · rename_i hlt
      simp only [memory_read_cons, ih]
      split <;> split <;> first | rfl | omega
    · split
      · rename_i heq
        subst heq
        simp only [memory_read_cons, eq_comm]
        split <;> rfl
      · simp only [memory_read_cons, eq_comm]

@[simp] theorem memory_read_write_same (m : Memory) (i : Nat) (b : Bool) :
    Memory.read (Memory.write m i b) i = some b := by
  rw [memory_read_write, if_pos rfl]

theorem memory_read_write_other {m : Memory} {i a : Nat} {b : Bool} (h : a ≠ i) :
    Memory.read (Memory.write m i b) a = Memory.read m a := by
  rw [memory_read_write, if_neg h]

/-- Writing at or above the lower limit keeps the indices rising from it. -/
theorem memory_rising_write (m : Memory) (lo i : Nat) (b : Bool) (hlo : lo ≤ i)
    (h : Memory.risingFrom lo m = true) : Memory.risingFrom lo (Memory.write m i b) = true := by
  induction m generalizing lo with
  | nil => simp [Memory.write, Memory.risingFrom, hlo]
  | cons c rest ih =>
    obtain ⟨j, d⟩ := c
    simp only [Memory.risingFrom, Bool.and_eq_true, decide_eq_true_eq] at h
    simp only [Memory.write]
    split
    · rename_i hlt
      simp only [Memory.risingFrom, Bool.and_eq_true, decide_eq_true_eq]
      exact ⟨h.1, ih (j + 1) (by omega) h.2⟩
    · split
      · rename_i heq
        subst heq
        simp only [Memory.risingFrom, Bool.and_eq_true, decide_eq_true_eq]
        exact h
      · simp only [Memory.risingFrom, Bool.and_eq_true, decide_eq_true_eq]
        exact ⟨hlo, by omega, h.2⟩

/-- Writing inside the address space keeps every index inside it. -/
theorem memory_inside_write (m : Memory) (i : Nat) (b : Bool) (hi : i < Config.bmCap)
    (h : m.all (fun c => c.1 < Config.bmCap) = true) :
    (Memory.write m i b).all (fun c => c.1 < Config.bmCap) = true := by
  induction m with
  | nil => simpa [Memory.write] using hi
  | cons c rest ih =>
    obtain ⟨j, d⟩ := c
    simp only [List.all_cons, Bool.and_eq_true, decide_eq_true_eq] at h
    simp only [Memory.write]
    split
    · simp only [List.all_cons, Bool.and_eq_true, decide_eq_true_eq]
      exact ⟨h.1, ih h.2⟩
    · split
      · simp only [List.all_cons, Bool.and_eq_true, decide_eq_true_eq]
        exact ⟨hi, h.2⟩
      · simp only [List.all_cons, Bool.and_eq_true, decide_eq_true_eq]
        exact ⟨hi, h⟩

/-- Everything `bmWrite` can do: it writes only inside the address space, the cell then reads as written, every other
cell reads as before, and the canonical form is kept. -/
theorem bmWrite_cases {m m' : Memory} {i : Nat} {b : Bool} (h : bmWrite m i b = some m') :
    i < Config.bmCap ∧ (∀ a, Memory.read m' a = if a = i then some b else Memory.read m a) ∧
      (Memory.wf m = true → Memory.wf m' = true) := by
  unfold bmWrite at h
  split at h
  · rename_i hi
    obtain rfl := Option.some.inj h
    refine ⟨hi, fun a => memory_read_write m i a b, fun hwf => ?_⟩
    simp only [Memory.wf, Bool.and_eq_true] at hwf ⊢
    exact ⟨memory_rising_write m 0 i b (Nat.zero_le _) hwf.1, memory_inside_write m i b hi hwf.2⟩
  · cases h

theorem bmWrite_none {m : Memory} {i : Nat} {b : Bool} : bmWrite m i b = none ↔ Config.bmCap ≤ i := by
  unfold bmWrite
  split <;> simp_all

/-- Everything `bmRead` can answer. -/
theorem bmRead_bit {m : Memory} {len i : Nat} {b : Bool} :
    bmRead m len i = .bit b ↔ i < len ∧ Memory.read m i = some b := by
  unfold bmRead
  split
  · split <;> simp_all
  · simp_all

theorem bmRead_outOfRange {m : Memory} {len i : Nat} : bmRead m len i = .outOfRange ↔ len ≤ i := by
  unfold bmRead
  split
  · split <;> simp_all
  · simp_all

theorem bmRead_unwritten {m : Memory} {len i : Nat} :
    bmRead m len i = .unwritten ↔ i < len ∧ Memory.read m i = none := by
  unfold bmRead
  split
  · split <;> simp_all
  · simp_all

/-- The memory of the reset state has the canonical form. -/
theorem reset_memory_wf : Memory.wf State.reset.bm = true := rfl

end Sys2Proof.Machine
end

