-- ==== Sys2Proof/Laws/State.lean ====
section
/-! SUPPORT. One lemma per field per named update of State, and the two ways a command ends. -/

namespace Sys2Proof.Machine

section setBmFields
variable (m : Memory) (s : State)

@[simp] theorem setBm_regS : (s.setBm m).regS = s.regS := rfl
@[simp] theorem setBm_seeded : (s.setBm m).seeded = s.seeded := rfl
@[simp] theorem setBm_k : (s.setBm m).k = s.k := rfl
@[simp] theorem setBm_bm : (s.setBm m).bm = m := rfl
@[simp] theorem setBm_bmLen : (s.setBm m).bmLen = s.bmLen := rfl
@[simp] theorem setBm_status : (s.setBm m).status = s.status := rfl
@[simp] theorem setBm_res : (s.setBm m).res = s.res := rfl
@[simp] theorem setBm_port : (s.setBm m).port = s.port := rfl

end setBmFields

section setBmLenFields
variable (n : LenWord) (s : State)

@[simp] theorem setBmLen_regS : (s.setBmLen n).regS = s.regS := rfl
@[simp] theorem setBmLen_seeded : (s.setBmLen n).seeded = s.seeded := rfl
@[simp] theorem setBmLen_k : (s.setBmLen n).k = s.k := rfl
@[simp] theorem setBmLen_bm : (s.setBmLen n).bm = s.bm := rfl
@[simp] theorem setBmLen_bmLen : (s.setBmLen n).bmLen = n := rfl
@[simp] theorem setBmLen_status : (s.setBmLen n).status = s.status := rfl
@[simp] theorem setBmLen_res : (s.setBmLen n).res = s.res := rfl
@[simp] theorem setBmLen_port : (s.setBmLen n).port = s.port := rfl

end setBmLenFields

section loadSeedFields
variable (v : Reg128) (s : State)

@[simp] theorem loadSeed_regS : (s.loadSeed v).regS = v := rfl
@[simp] theorem loadSeed_seeded : (s.loadSeed v).seeded = true := rfl
@[simp] theorem loadSeed_k : (s.loadSeed v).k = 0 := rfl
@[simp] theorem loadSeed_bm : (s.loadSeed v).bm = s.bm := rfl
@[simp] theorem loadSeed_bmLen : (s.loadSeed v).bmLen = s.bmLen := rfl
@[simp] theorem loadSeed_status : (s.loadSeed v).status = s.status := rfl
@[simp] theorem loadSeed_res : (s.loadSeed v).res = s.res := rfl
@[simp] theorem loadSeed_port : (s.loadSeed v).port = s.port := rfl

end loadSeedFields

section advanceFields
variable (v : Reg128) (n : Nat) (s : State)

@[simp] theorem advance_regS : (s.advance v n).regS = v := rfl
@[simp] theorem advance_seeded : (s.advance v n).seeded = s.seeded := rfl
@[simp] theorem advance_k : (s.advance v n).k = s.k + n := rfl
@[simp] theorem advance_bm : (s.advance v n).bm = s.bm := rfl
@[simp] theorem advance_bmLen : (s.advance v n).bmLen = s.bmLen := rfl
@[simp] theorem advance_status : (s.advance v n).status = s.status := rfl
@[simp] theorem advance_res : (s.advance v n).res = s.res := rfl
@[simp] theorem advance_port : (s.advance v n).port = s.port := rfl

end advanceFields

section emitAllFields
variable (op : BitVec 4) (vs : List Nat) (s : State)

@[simp] theorem emitAll_regS : (s.emitAll op vs).regS = s.regS := rfl
@[simp] theorem emitAll_seeded : (s.emitAll op vs).seeded = s.seeded := rfl
@[simp] theorem emitAll_k : (s.emitAll op vs).k = s.k := rfl
@[simp] theorem emitAll_bm : (s.emitAll op vs).bm = s.bm := rfl
@[simp] theorem emitAll_bmLen : (s.emitAll op vs).bmLen = s.bmLen := rfl
@[simp] theorem emitAll_status : (s.emitAll op vs).status = s.status := rfl
@[simp] theorem emitAll_res : (s.emitAll op vs).res = s.res ++ vs.map (event op) := rfl
@[simp] theorem emitAll_port : (s.emitAll op vs).port = s.port := rfl

end emitAllFields

section finishFields
variable (c : Code) (depr : Bool) (s : State)

@[simp] theorem finish_regS : (s.finish c depr).regS = s.regS := rfl
@[simp] theorem finish_seeded : (s.finish c depr).seeded = s.seeded := rfl
@[simp] theorem finish_k : (s.finish c depr).k = s.k := rfl
@[simp] theorem finish_bm : (s.finish c depr).bm = s.bm := rfl
@[simp] theorem finish_bmLen : (s.finish c depr).bmLen = s.bmLen := rfl
@[simp] theorem finish_status : (s.finish c depr).status = statusWord c depr s.seeded := rfl
@[simp] theorem finish_res : (s.finish c depr).res = s.res := rfl
@[simp] theorem finish_port : (s.finish c depr).port = s.port := rfl

end finishFields

section setPortFields
variable (p : List HostInput) (s : State)

@[simp] theorem setPort_regS : (s.setPort p).regS = s.regS := rfl
@[simp] theorem setPort_seeded : (s.setPort p).seeded = s.seeded := rfl
@[simp] theorem setPort_k : (s.setPort p).k = s.k := rfl
@[simp] theorem setPort_bm : (s.setPort p).bm = s.bm := rfl
@[simp] theorem setPort_bmLen : (s.setPort p).bmLen = s.bmLen := rfl
@[simp] theorem setPort_status : (s.setPort p).status = s.status := rfl
@[simp] theorem setPort_res : (s.setPort p).res = s.res := rfl
@[simp] theorem setPort_port : (s.setPort p).port = p := rfl

end setPortFields

/-- Completing is ending with the code `OK`. -/
@[simp] theorem complete_eq (depr : Bool) (s : State) : complete depr s = s.finish .ok depr := rfl

/-- Raising writes `STATUS` and nothing else. -/
@[simp] theorem raise_eq (c : Code) (depr : Bool) (s : State) :
    raise c depr s = { s with status := statusWord c depr s.seeded } := rfl

@[simp] theorem raiseIllegal_eq (s : State) :
    raiseIllegal s = { s with status := statusWord .errIllegal false s.seeded } := rfl

@[simp] theorem takeReset_eq (s : State) : takeReset s = { State.reset with port := s.port } := rfl

end Sys2Proof.Machine
end

