-- ==== Sys2Proof/Laws/Ops.lean ====
section
/-! SUPPORT. What each shared operation and each command can do, said once: later proofs cite these instead of unfolding. -/

namespace Sys2Proof.Machine

/-- Nothing is presented, or the first input is taken and the rest stays. -/
theorem takeInput_cases (s : State) :
    (s.port = [] ∧ takeInput s = none) ∨
      ∃ x rest, s.port = x :: rest ∧ takeInput s = some (x, { s with port := rest }) := by
  unfold takeInput
  split
  · exact .inl ⟨by assumption, rfl⟩
  · exact .inr ⟨_, _, by assumption, rfl⟩

/-- One step: idle, a reset, an illegal word, or the meaning of the decoded command. -/
theorem stepBy_cases (meaning : Instr → State → Host.Outcome State Fault Refusal) (s : State) :
    (s.port = [] ∧ stepBy meaning s = .next s) ∨
    (∃ rest, s.port = .reset :: rest ∧ stepBy meaning s = .next { State.reset with port := rest }) ∨
    (∃ t rest e, s.port = .command t :: rest ∧ decode t = .error e ∧
      stepBy meaning s = .next { s with port := rest, status := statusWord .errIllegal false s.seeded }) ∨
    ∃ t rest i, s.port = .command t :: rest ∧ decode t = .ok i ∧
      stepBy meaning s = meaning i { s with port := rest } := by
  rcases takeInput_cases s with ⟨hp, ht⟩ | ⟨x, rest, hp, ht⟩
  · exact .inl ⟨hp, by simp [stepBy, ht]⟩
  · cases x with
    | reset => exact .inr (.inl ⟨rest, hp, by simp [stepBy, ht]⟩)
    | command t =>
      cases hd : decode t with
      | error e => exact .inr (.inr (.inl ⟨t, rest, e, hp, hd, by simp [stepBy, ht, hd]⟩))
      | ok i => exact .inr (.inr (.inr ⟨t, rest, i, hp, hd, by simp [stepBy, ht, hd]⟩))

/-- `stepBy_cases` for the machine's own step. -/
theorem step_cases (s : State) :
    (s.port = [] ∧ step s = .next s) ∨
    (∃ rest, s.port = .reset :: rest ∧ step s = .next { State.reset with port := rest }) ∨
    (∃ t rest e, s.port = .command t :: rest ∧ decode t = .error e ∧
      step s = .next { s with port := rest, status := statusWord .errIllegal false s.seeded }) ∨
    ∃ t rest i, s.port = .command t :: rest ∧ decode t = .ok i ∧ step s = exec i { s with port := rest } :=
  stepBy_cases exec s

/-- The bit sequence's length: drawing `n` bits after `out` keeps `out` above them. -/
theorem drawBits_zero (S : Reg128) (out : Nat) : drawBits 0 S out = (S, out) := rfl

theorem drawBits_succ (n : Nat) (S : Reg128) (out : Nat) :
    drawBits (n + 1) S out = drawBits n (lfsrNext S) (appendBit out (lfsrOut S)) := rfl

/-- Appending a bit doubles and adds. -/
theorem appendBit_eq (out : Nat) (b : Bool) : appendBit out b = 2 * out + b.toNat := by
  unfold appendBit
  rw [Nat.shiftLeft_eq, Nat.pow_one, Nat.mul_comm]
  cases b
  · simp
  · rw [show (true.toNat) = 1 from rfl]
    have := Nat.two_pow_add_eq_or_of_lt (i := 1) (b := 1) (by decide) out
    simpa [Nat.mul_comm] using this.symm

/-- A walk of no iterations ends with the bits read so far. -/
theorem walk_zero (A : HenonArith) (m : Memory) (N : Nat) (p : A.R × A.R) (out : Nat) :
    walk A m N 0 p out = .value out := rfl

/-- A walk's first iteration: the cell at the new index is read, or the walk ends. -/
theorem walk_succ (A : HenonArith) (m : Memory) (N fuel : Nat) (p : A.R × A.R) (out : Nat) :
    walk A m N (fuel + 1) p out =
      match bmRead m N (sampleIndex A (henonStep A p N)) with
      | .bit b => walk A m N fuel (henonStep A p N) (appendBit out b)
      | .outOfRange => .badIndex
      | .unwritten => .unwritten := rfl

/-- Everything `ISAMP` can do, under any arithmetic. -/
theorem isampWith_cases (A : HenonArith) (nbits : Nat) (s : State) :
    (isampWith A nbits s = .next (raise .errParam false s) ∧ (nbits < 1 ∨ 512 < nbits)) ∨
    (isampWith A nbits s = .next (raise .errPrecond false s) ∧ s.bmLen.toNat = 0) ∨
    (∃ v, isampWith A nbits s = .next (complete false (s.emitAll 0x3#4 [v])) ∧
      iSample A s.bm s.bmLen.toNat nbits = .value v) ∨
    (isampWith A nbits s = .next (raise .errBmindex false s) ∧
      iSample A s.bm s.bmLen.toNat nbits = .badIndex) ∨
    (isampWith A nbits s = .fault .bmCellUnwritten ∧
      iSample A s.bm s.bmLen.toNat nbits = .unwritten) := by
  unfold isampWith
  split
  · exact .inl ⟨rfl, by assumption⟩
  · split
    · exact .inr (.inl ⟨rfl, by assumption⟩)
    · cases h : iSample A s.bm s.bmLen.toNat nbits with
      | value v => exact .inr (.inr (.inl ⟨v, rfl, rfl⟩))
      | badIndex => exact .inr (.inr (.inr (.inl ⟨rfl, rfl⟩)))
      | unwritten => exact .inr (.inr (.inr (.inr ⟨rfl, rfl⟩)))

/-- Everything `ISEED` can do, under any arithmetic. -/
theorem iseedWith_cases (A : HenonArith) (s : State) :
    (iseedWith A s = .next (raise .errPrecond false s) ∧ s.bmLen.toNat = 0) ∨
    (∃ v, iseedWith A s = .next (complete false (s.loadSeed (BitVec.ofNat 128 v))) ∧
      iSample A s.bm s.bmLen.toNat 128 = .value v) ∨
    (iseedWith A s = .next (raise .errBmindex false s) ∧ iSample A s.bm s.bmLen.toNat 128 = .badIndex) ∨
    (iseedWith A s = .fault .bmCellUnwritten ∧ iSample A s.bm s.bmLen.toNat 128 = .unwritten) := by
  unfold iseedWith
  split
  · exact .inl ⟨rfl, by assumption⟩
  · cases h : iSample A s.bm s.bmLen.toNat Config.sw with
    | value v => exact .inr (.inl ⟨v, rfl, rfl⟩)
    | badIndex => exact .inr (.inr (.inl ⟨rfl, rfl⟩))
    | unwritten => exact .inr (.inr (.inr ⟨rfl, rfl⟩))

/-- Everything `BMPUSH` can do. -/
theorem execBmpush_cases (b : Bool) (s : State) :
    (execBmpush b s = .next (raise .errBmfull false s) ∧ s.bmLen.toNat = Config.bmCap) ∨
    (∃ m, execBmpush b s = .next (complete false ((s.setBm m).setBmLen (s.bmLen + 1#21))) ∧
      bmWrite s.bm s.bmLen.toNat b = some m ∧ s.bmLen.toNat ≠ Config.bmCap) ∨
    (execBmpush b s = .fault .bmAddress ∧ Config.bmCap < s.bmLen.toNat) := by
  unfold execBmpush
  split
  · exact .inl ⟨rfl, by assumption⟩
  · rename_i hne
    cases h : bmWrite s.bm s.bmLen.toNat b with
    | some m => exact .inr (.inl ⟨m, rfl, rfl, hne⟩)
    | none =>
      have := bmWrite_none.1 h
      exact .inr (.inr ⟨rfl, by omega⟩)

/-- Everything `NEXT` can do. -/
theorem execNext_cases (n : Nat) (e : Bool) (s : State) :
    (execNext n e s = .next (raise .errParam false s) ∧ (n < 1 ∨ 1024 < n)) ∨
    (execNext n e s = .next (raise .errUnseeded false s) ∧ s.seeded = false) ∨
    (execNext n e s =
        .next (complete false ((s.advance (nextBits n e s.regS).1 n).emitAll 0x6#4 [(nextBits n e s.regS).2])) ∧
      1 ≤ n ∧ n ≤ 1024 ∧ s.seeded = true) := by
  unfold execNext
  split
  · exact .inl ⟨rfl, by assumption⟩
  · rename_i hn
    simp only [Config.nextMax, not_or, Nat.not_lt] at hn
    split
    · exact .inr (.inl ⟨rfl, by assumption⟩)
    · rename_i hs
      exact .inr (.inr ⟨rfl, hn.1, hn.2, by simpa using hs⟩)

/-- Everything `RSTREAM` can do. -/
theorem execRstream_cases (a b : Int) (count : Nat) (s : State) :
    (execRstream a b count s = .next (raise .errParam false s) ∧
      (badBounds a b = true ∨ (1 ≤ count ∧ 1024 < drawWidth a b))) ∨
    (execRstream a b count s = .next (raise .errUnseeded false s) ∧ s.seeded = false) ∨
    (execRstream a b count s =
        .next (complete false ((s.advance (drawValues a b (drawWidth a b) count s.regS).1
          (count * drawWidth a b)).emitAll 0x7#4 (drawValues a b (drawWidth a b) count s.regS).2)) ∧
      badBounds a b = false ∧ s.seeded = true) := by
  unfold execRstream
  split
  · exact .inl ⟨rfl, .inl (by assumption)⟩
  · rename_i hb
    simp only
    split
    · exact .inl ⟨rfl, .inr (by assumption)⟩
    · split
      · exact .inr (.inl ⟨rfl, by assumption⟩)
      · rename_i hs
        exact .inr (.inr ⟨rfl, by simpa using hb, by simpa using hs⟩)

/-- Everything `RHASH` can do. -/
theorem execRhash_cases (a b : Int) (h : Nat) (s : State) :
    (execRhash a b h s = .next (raise .errParam true s) ∧ badBounds a b = true) ∨
    (execRhash a b h s = .next (complete true (s.emitAll 0x8#4 [mapInto a b h])) ∧ badBounds a b = false) := by
  unfold execRhash
  split
  · exact .inl ⟨rfl, by assumption⟩
  · rename_i hb
    exact .inr ⟨rfl, by simpa using hb⟩

end Sys2Proof.Machine
end

