-- ==== Sys2Proof/Laws/Draw.lean ====
section
/-! SUPPORT. What drawing bits and mapping them do: the register, the size and the bits of the drawn integer. -/

namespace Sys2Proof.Machine

@[simp] theorem regAfter_zero (S : Reg128) : regAfter 0 S = S := rfl

theorem regAfter_succ (n : Nat) (S : Reg128) : regAfter (n + 1) S = regAfter n (lfsrNext S) :=
  Function.iterate_succ_apply lfsrNext n S

theorem regAfter_add (m n : Nat) (S : Reg128) : regAfter (m + n) S = regAfter m (regAfter n S) :=
  Function.iterate_add_apply lfsrNext m n S

/-- The register after drawing. -/
@[simp] theorem drawBits_reg (n : Nat) (S : Reg128) (out : Nat) : (drawBits n S out).1 = regAfter n S := by
  induction n generalizing S out with
  | zero => rfl
  | succ n ih => rw [drawBits_succ, ih, regAfter_succ]

/-- Bits drawn below `out` are `out` shifted, plus the bits drawn alone. -/
theorem drawBits_value (n : Nat) (S : Reg128) (out : Nat) :
    (drawBits n S out).2 = 2 ^ n * out + (drawBits n S 0).2 := by
  induction n generalizing S out with
  | zero => simp [drawBits_zero]
  | succ n ih =>
    rw [drawBits_succ, drawBits_succ, ih, ih (out := appendBit 0 _)]
    simp only [appendBit_eq]
    ring

theorem drawBits_lt (n : Nat) (S : Reg128) : (drawBits n S 0).2 < 2 ^ n := by
  induction n generalizing S with
  | zero => simp [drawBits_zero]
  | succ n ih =>
    rw [drawBits_succ, drawBits_value, appendBit_eq]
    have := ih (lfsrNext S)
    have hb : (lfsrOut S).toNat ≤ 1 := Bool.toNat_le _
    rw [pow_succ]
    nlinarith

/-- The bit of the step with number `j`, from 0, is bit `n − 1 − j` (R113). -/
theorem drawBits_testBit (n j : Nat) (S : Reg128) (hj : j < n) :
    (drawBits n S 0).2.testBit (n - 1 - j) = lfsrOut (regAfter j S) := by
  induction n generalizing S j with
  | zero => omega
  | succ n ih =>
    rw [drawBits_succ, drawBits_value, appendBit_eq, Nat.mul_zero, Nat.zero_add,
      Nat.testBit_two_pow_mul_add _ (drawBits_lt n _)]
    cases j with
    | zero => cases h : lfsrOut S <;> simp [h]
    | succ j =>
      rw [if_pos (by omega), regAfter_succ, ← ih j (lfsrNext S) (by omega)]
      congr 1
      omega

/-- Drawing is the integer `IsDraw` describes. -/
theorem drawBits_isDraw (n : Nat) (S : Reg128) : IsDraw S 0 n (drawBits n S 0).2 :=
  ⟨drawBits_lt n S, fun j hj => by rw [drawBits_testBit n j S hj, Nat.zero_add]⟩

@[simp] theorem nextBits_reg (n : Nat) (e : Bool) (S : Reg128) : (nextBits n e S).1 = regAfter n S := by
  simp [nextBits]

@[simp] theorem nextBits_plain (n : Nat) (S : Reg128) : (nextBits n false S).2 = (drawBits n S 0).2 := rfl

/-- A mapped value lies in the interval (R137, R142). -/
theorem mapInto_bounds {a b : Int} (x : Nat) (ha : 0 ≤ a) (hab : a ≤ b) :
    a ≤ (mapInto a b x : Int) ∧ (mapInto a b x : Int) ≤ b := by
  have hm : (modulus a b : Int) = b - a + 1 := by unfold modulus; omega
  have hlt : x % modulus a b < modulus a b := Nat.mod_lt _ (by omega)
  unfold mapInto
  omega

theorem badBounds_false {a b : Int} : badBounds a b = false ↔ 0 ≤ a ∧ 0 ≤ b ∧ a ≤ b := by
  unfold badBounds
  simp [Bool.or_eq_false_iff, and_assoc]

end Sys2Proof.Machine
end

