-- ==== Sys2Proof/Laws/PerInstr.lean ====
section
/-! SUPPORT. Statements about every command, made constructor by constructor. -/

namespace Sys2Proof.Laws

/-- The encoded word of a well-formed command selects the command's own row of the opcode map (R68). -/
def TableRow.Statement (i : Instr) : Prop :=
  i.wf = true → (encode i).cw &&& (opcodeRow i).mask = (opcodeRow i).pattern ∧ opcodeRow i ∈ opcodeMap

/-- Every value of the count field leaves the fixed bits of `ISAMP` as they are. -/
theorem isamp_word_fixed_bits : ∀ n, n < 2048 →
    (0x30000000#32 + BitVec.ofNat 32 n) &&& 0xFFFFF800#32 = 0x30000000#32 := by
  decide +kernel

/-- Every value of the count field and the flag leaves the fixed bits of `NEXT` as they are. -/
theorem next_word_fixed_bits : ∀ e : Bool, ∀ n, n < 2048 →
    (0x60000000#32 + ((BitVec.ofBool e).setWidth 32 <<< 11) + BitVec.ofNat 32 n) &&& 0xFFFFF000#32 =
      0x60000000#32 := by
  decide +kernel

theorem TableRow.bmclr : TableRow.Statement .bmclr := fun _ => by decide

theorem TableRow.bmpush (b : Bool) : TableRow.Statement (.bmpush b) := fun _ => by
  cases b <;> decide

theorem TableRow.isamp (nbits : Nat) : TableRow.Statement (.isamp nbits) := fun h =>
  have hn : nbits ≤ 2047 := by simpa [Instr.wf, fitsCountField] using h
  ⟨isamp_word_fixed_bits nbits (by omega), by simp [opcodeRow, opcodeMap]⟩

theorem TableRow.iseed : TableRow.Statement .iseed := fun _ => by decide

theorem TableRow.seed (seed : Reg128) : TableRow.Statement (.seed seed) := fun _ =>
  ⟨(by decide : 0x50000000#32 &&& 0xFFFFFFFF#32 = 0x50000000#32), by simp [opcodeRow, opcodeMap]⟩

theorem TableRow.next (n : Nat) (enforce : Bool) : TableRow.Statement (.next n enforce) := fun h =>
  have hn : n ≤ 2047 := by simpa [Instr.wf, fitsCountField] using h
  ⟨next_word_fixed_bits enforce n (by omega), by simp [opcodeRow, opcodeMap]⟩

theorem TableRow.rstream (a b : Int) (count : Nat) : TableRow.Statement (.rstream a b count) := fun _ =>
  ⟨(by decide : 0x70000000#32 &&& 0xFFFFFFFF#32 = 0x70000000#32), by simp [opcodeRow, opcodeMap]⟩

theorem TableRow.rhash (a b : Int) (h : Nat) : TableRow.Statement (.rhash a b h) := fun _ =>
  ⟨(by decide : 0x80000000#32 &&& 0xFFFFFFFF#32 = 0x80000000#32), by simp [opcodeRow, opcodeMap]⟩

end Sys2Proof.Laws
end

