-- ==== Sys2Proof/Laws/Walk.lean ====
section
/-! SUPPORT. What the index walk does, said once: how a sample ends, in terms of the index sequence. -/

namespace Sys2Proof.Machine

/-- The walk from the pair of iteration `k`: all the ways it can end. -/
theorem walk_cases (A : HenonArith) (m : Memory) (N nbits fuel k out : Nat) :
    (∃ v, walk A m N fuel (henonOrbit A N nbits k) out = .value (2 ^ fuel * out + v) ∧ v < 2 ^ fuel ∧
      ∀ i, i < fuel → walkIndex A N nbits (k + i) < N ∧
        Memory.read m (walkIndex A N nbits (k + i)) = some (v.testBit (fuel - 1 - i))) ∨
    ∃ j, j < fuel ∧
      (∀ i, i < j → walkIndex A N nbits (k + i) < N ∧ ∃ b, Memory.read m (walkIndex A N nbits (k + i)) = some b) ∧
      ((walk A m N fuel (henonOrbit A N nbits k) out = .badIndex ∧ N ≤ walkIndex A N nbits (k + j)) ∨
       (walk A m N fuel (henonOrbit A N nbits k) out = .unwritten ∧ walkIndex A N nbits (k + j) < N ∧
        Memory.read m (walkIndex A N nbits (k + j)) = none)) := by
  induction fuel generalizing k out with
  | zero => exact .inl ⟨0, by simp [walk_zero], by simp, fun i hi => absurd hi (Nat.not_lt_zero i)⟩
  | succ fuel ih =>
    rw [walk_succ, show henonStep A (henonOrbit A N nbits k) N = henonOrbit A N nbits (k + 1) from rfl,
      show sampleIndex A (henonOrbit A N nbits (k + 1)) = walkIndex A N nbits k from rfl]
    cases h : bmRead m N (walkIndex A N nbits k) with
    | outOfRange =>
      exact .inr ⟨0, by omega, fun i hi => absurd hi (Nat.not_lt_zero i), .inl ⟨rfl, bmRead_outOfRange.1 h⟩⟩
    | unwritten =>
      exact .inr ⟨0, by omega, fun i hi => absurd hi (Nat.not_lt_zero i), .inr ⟨rfl, bmRead_unwritten.1 h⟩⟩
    | bit b =>
      have hb := bmRead_bit.1 h
      simp only
      rcases ih (k + 1) (appendBit out b) with ⟨v, hv, hlt, hbits⟩ | ⟨j, hj, hpre, hend⟩
      · refine .inl ⟨2 ^ fuel * b.toNat + v, ?_, ?_, ?_⟩
        · rw [hv, appendBit_eq]
          congr 1
          ring
        · have := Bool.toNat_le b
          rw [pow_succ]
          nlinarith
        · intro i hi
          rw [Nat.testBit_two_pow_mul_add _ hlt]
          cases i with
          | zero =>
            refine ⟨hb.1, ?_⟩
            rw [Nat.add_zero, hb.2]
            cases b <;> simp
          | succ i =>
            have := hbits i (by omega)
            rw [if_pos (by omega), show k + (i + 1) = k + 1 + i by omega,
              show fuel + 1 - 1 - (i + 1) = fuel - 1 - i by omega]
            exact this
      · refine .inr ⟨j + 1, by omega, ?_, by rw [show k + (j + 1) = k + 1 + j by omega]; exact hend⟩
        intro i hi
        cases i with
        | zero => exact ⟨hb.1, b, hb.2⟩
        | succ i =>
          rw [show k + (i + 1) = k + 1 + i by omega]
          exact hpre i (by omega)

/-- How a sample ends: with the integer the walk assembles, at the first index outside the matrix, or at the first cell that
nothing has written. -/
theorem iSample_cases (A : HenonArith) (m : Memory) (N nbits : Nat) :
    (∃ v, iSample A m N nbits = .value v ∧ WalkInRange A N nbits ∧ IsSampleValue A m N nbits v) ∨
    ∃ j, j < nbits ∧
      (∀ i, i < j → walkIndex A N nbits i < N ∧ ∃ b, Memory.read m (walkIndex A N nbits i) = some b) ∧
      ((iSample A m N nbits = .badIndex ∧ N ≤ walkIndex A N nbits j) ∨
       (iSample A m N nbits = .unwritten ∧ walkIndex A N nbits j < N ∧
        Memory.read m (walkIndex A N nbits j) = none)) := by
  have h := walk_cases A m N nbits nbits 0 0
  simp only [Nat.mul_zero, Nat.zero_add] at h
  rcases h with ⟨v, hv, hlt, hb⟩ | ⟨j, hj, hpre, hend⟩
  · exact .inl ⟨v, hv, fun i hi => (hb i hi).1, hlt, fun i hi => (hb i hi).2⟩
  · exact .inr ⟨j, hj, hpre, hend⟩

/-- A sample that ends with a value: what that says of the walk. -/
theorem iSample_value {A : HenonArith} {m : Memory} {N nbits v : Nat} (h : iSample A m N nbits = .value v) :
    WalkInRange A N nbits ∧ IsSampleValue A m N nbits v := by
  rcases iSample_cases A m N nbits with ⟨w, hw, hr, hs⟩ | ⟨j, _, _, ⟨hb, _⟩ | ⟨hb, _⟩⟩
  · rw [h] at hw
    obtain rfl := Sample.value.inj hw
    exact ⟨hr, hs⟩
  · rw [h] at hb
    cases hb
  · rw [h] at hb
    cases hb

/-- A sample depends only on the cells below the length. -/
theorem walk_congr (A : HenonArith) {m m' : Memory} {N : Nat}
    (h : ∀ i, i < N → Memory.read m i = Memory.read m' i) (fuel : Nat) (p : A.R × A.R) (out : Nat) :
    walk A m N fuel p out = walk A m' N fuel p out := by
  induction fuel generalizing p out with
  | zero => rfl
  | succ fuel ih =>
    have hr : ∀ i, bmRead m N i = bmRead m' N i := by
      intro i
      unfold bmRead
      split
      · rename_i hi
        rw [h i hi]
      · rfl
    rw [walk_succ, walk_succ, hr]
    split <;> first | exact ih _ _ | rfl

theorem iSample_congr (A : HenonArith) {m m' : Memory} {N : Nat} (nbits : Nat)
    (h : ∀ i, i < N → Memory.read m i = Memory.read m' i) : iSample A m N nbits = iSample A m' N nbits :=
  walk_congr A h nbits _ _

end Sys2Proof.Machine
end

