-- ==== Sys2Proof/Tests/Slice0.lean ====
section
/-! SUPPORT. Tests of single steps against the words and vectors of spec/, and a witness for the hypotheses of each statement. -/

namespace Sys2Proof.Tests

open Sys2Proof.Machine

/-! Helpers: small states, and one outcome's next state. -/

/-- The state an outcome goes on to. -/
def nextState : Host.Outcome State Fault Refusal → Option State
  | .next s => some s
  | .fault _ => none
  | .refused _ => none

/-- A block whose register has just been seeded. -/
def seededWith (v : Reg128) : State :=
  { State.reset with regS := v, seeded := true, status := statusWord .ok false true }

/-- A block whose BitMatrix is the given bits. -/
def loadedWith (bits : List Bool) : State :=
  { State.reset with bm := (List.range bits.length).zip bits, bmLen := BitVec.ofNat 21 bits.length }

/-- A block to which one word is presented, with every side operand zero. -/
def presented (cw : Word) : State := { State.reset with port := [.command (bareTransfer cw)] }

/-- The values of the result events. -/
def resultsOf (o : Host.Outcome State Fault Refusal) : Option (List (BitVec 4 × Nat)) :=
  (nextState o).map (fun s => s.res.map (fun e => (e.op, e.value.toNat)))

/-- The status word after an outcome. -/
def statusOf (o : Host.Outcome State Fault Refusal) : Option Word := (nextState o).map (·.status)

/-- `S` and `K` after an outcome. -/
def registerOf (o : Host.Outcome State Fault Refusal) : Option (Reg128 × Nat) :=
  (nextState o).map (fun s => (s.regS, s.k))

def seedS0 : Reg128 := 0x0123456789ABCDEFFEDCBA9876543210#128

def seedS1 : Reg128 := 0xDEADBEEFCAFEBABE0123456789ABCDEF#128

/-- The 16-bit BitMatrix of 95 V-I1. -/
def bmA : List Bool :=
  [true, false, true, true, false, false, true, true, true, false, false, false, true, true, false, true]

/-- The 160-bit BitMatrix of 95 V-I4. -/
def bmB : List Bool := (List.range 160).map (fun i => i % 3 == 0 || i % 7 == 3)

/-! WellFormed: an ill-formed term for each check, which the check refuses (R72). -/

theorem test_wf_isamp_count : (Instr.isamp 2048).wf = false ∧ (Instr.isamp 2047).wf = true := by decide

theorem test_wf_next_count : (Instr.next 2048 true).wf = false ∧ (Instr.next 0 false).wf = true := by decide

theorem test_wf_rstream_bounds :
    (Instr.rstream (2 ^ 1024 : Nat) 0 1).wf = false ∧ (Instr.rstream 0 (-(2 ^ 1024 : Nat) - 1) 1).wf = false ∧
      (Instr.rstream (-(2 ^ 1024 : Nat)) ((2 ^ 1024 : Nat) - 1) 1).wf = true := by decide +kernel

theorem test_wf_rstream_count : (Instr.rstream 0 0 (2 ^ 32)).wf = false := by decide +kernel

theorem test_wf_rhash_digest :
    (Instr.rhash 0 0 (2 ^ 512)).wf = false ∧ (Instr.rhash 0 0 (2 ^ 512 - 1)).wf = true := by decide +kernel

/-! Decode: each command's word, bit by bit from its format (R62 to R65, R68). -/

theorem test_decode_bmclr :
    decode (bareTransfer 0b00010000000000000000000000000000#32) = .ok .bmclr := by decide

theorem test_decode_bmpush :
    decode (bareTransfer 0b00100000000000000000000000000000#32) = .ok (.bmpush false) ∧
      decode (bareTransfer 0b00100000000000000000000000000001#32) = .ok (.bmpush true) := by decide

theorem test_decode_isamp :
    decode (bareTransfer 0b00110000000000000000000010000000#32) = .ok (.isamp 128) ∧
      decode (bareTransfer 0b00110000000000000000011111111111#32) = .ok (.isamp 2047) := by decide

theorem test_decode_iseed :
    decode (bareTransfer 0b01000000000000000000000000000000#32) = .ok .iseed := by decide

theorem test_decode_seed :
    decode { bareTransfer 0b01010000000000000000000000000000#32 with seedIn := seedS0 } = .ok (.seed seedS0) := by
  decide

theorem test_decode_next :
    decode (bareTransfer 0b01100000000000000000100000001000#32) = .ok (.next 8 true) ∧
      decode (bareTransfer 0b01100000000000000000010000000001#32) = .ok (.next 1025 false) := by decide

theorem test_decode_rstream :
    decode { bareTransfer 0b01110000000000000000000000000000#32 with aIn := 10#1025, bIn := 20#1025, cntIn := 4#32 } =
      .ok (.rstream 10 20 4) := by decide +kernel

theorem test_decode_rhash :
    decode { bareTransfer 0b10000000000000000000000000000000#32 with
      aIn := BitVec.ofInt 1025 (-5), bIn := 5#1025, hIn := 7#512 } = .ok (.rhash (-5) 5 7) := by decide +kernel

/-- The illegal words of 95 section 5. -/
theorem test_decode_illegal :
    ([0x00000000#32, 0x90000000#32, 0xA0000000#32, 0xF0000000#32, 0xFFFFFFFF#32].all
      (fun w => decode (bareTransfer w) = .error .reservedOpcode)) = true ∧
    ([0x10000001#32, 0x20000002#32, 0x30000804#32, 0x60001008#32, 0x40000080#32, 0x50010000#32, 0x78000000#32,
      0x80000001#32].all (fun w => decode (bareTransfer w) = .error .reservedBits)) = true := by decide

theorem test_encode_words :
    (encode (.next 1024 true)).cw = 0x60000C00#32 ∧ (encode (.isamp 513)).cw = 0x30000201#32 ∧
      (encode (.rstream (-1) 3 1)).aIn = BitVec.allOnes 1025 := by decide +kernel

/-! The step and the port (R69, R180; 95 section 6). -/

theorem test_step_illegal : statusOf (step (presented 0x00000000#32)) = some 0x00000004#32 := by decide

theorem test_step_next_unseeded : statusOf (step (presented 0x60000008#32)) = some 0x00000003#32 := by decide

theorem test_step_param_before_unseeded : statusOf (step (presented 0x60000000#32)) = some 0x00000001#32 := by decide

theorem test_step_withFetchWord :
    (nextState (step (State.reset.withFetchWord 32 0x20000001))).map (fun s => (s.bm, s.bmLen, s.port)) =
      some ([(0, true)], 1#21, []) := by decide

theorem test_step_reset :
    (nextState (step { seededWith seedS0 with port := [.reset] })).map (fun s => (s.seeded, s.status)) =
      some (false, 0#32) := by decide

/-! Loading and sampling (95 V-I1 to V-I5). -/

theorem test_bmclr : (nextState (exec .bmclr (loadedWith [true, false]))).map (·.bmLen) = some 0#21 := by decide

theorem test_bmpush :
    (nextState (execAll [.bmpush true, .bmpush false, .bmpush true] State.reset)).map (fun s => (s.bm, s.bmLen)) =
      some ([(0, true), (1, false), (2, true)], 3#21) := by decide

theorem test_bmpush_full :
    statusOf (exec (.bmpush true) { seededWith 0#128 with bmLen := 0x100000#21 }) = some 0x00000025#32 := by
  decide

theorem test_isamp_floored :
    resultsOf (isampWith (binary64 .floored) 4 (loadedWith bmA)) = some [(0x3#4, 0x5)] ∧
      resultsOf (isampWith (binary64 .floored) 8 (loadedWith bmA)) = some [(0x3#4, 0x1B)] := by decide +kernel

theorem test_isamp_trunc :
    resultsOf (isampWith (binary64 .trunc) 4 (loadedWith bmA)) = some [(0x3#4, 0xA)] ∧
      resultsOf (isampWith (exactArith .trunc) 4 (loadedWith bmA)) = some [(0x3#4, 0xA)] := by decide +kernel

/-- Ties of binary64 by hand (R86): 2^53 + 1 goes down to 2^52 · 2, 2^53 + 3 up to (2^52 + 2) · 2, their negatives alike, and
2^53 + 2 stays. -/
theorem test_round_ties :
    b64Round ⟨2 ^ 53 + 1, 0⟩ = ⟨2 ^ 52, 1⟩ ∧ b64Round ⟨2 ^ 53 + 3, 0⟩ = ⟨2 ^ 52 + 2, 1⟩ ∧
      b64Round ⟨-(2 ^ 53 + 3), 0⟩ = ⟨-(2 ^ 52 + 2), 1⟩ ∧ b64Round ⟨2 ^ 53 + 2, 0⟩ = ⟨2 ^ 52 + 1, 1⟩ := by
  decide +kernel

/-- 95 V-I4, `ISEED` under `FLOORED`. -/
theorem test_iseed_floored :
    iSample (binary64 .floored) (loadedWith bmB).bm 160 128 = .value 0x1EC031DF04A2006238676409918B5A98 := by
  decide +kernel

/-- 95 V-I4, `ISEED` under `TRUNC`. -/
theorem test_iseed_trunc :
    iSample (binary64 .trunc) (loadedWith bmB).bm 160 128 = .value 0x27C30D732A77AEA56C1C6D42CEFECEF6 := by
  decide +kernel

/-! The generator (95 section 2). -/

theorem test_seed : statusOf (exec (.seed seedS0) State.reset) = some 0x00000020#32 ∧
    registerOf (exec (.seed seedS0) { State.reset with k := 7 }) = some (seedS0, 0) := by decide

theorem test_step_taps :
    lfsrNext 0x86#128 = 0x80000000000000000000000000000043#128 ∧ lfsrOut 0x86#128 = true ∧
      lfsrNext 0x87#128 = 0x43#128 ∧ lfsrNext 0x1#128 = 0x80000000000000000000000000000000#128 ∧
      lfsrOut 0x1#128 = false := by decide

theorem test_next_plain :
    resultsOf (exec (.next 16 false) (seededWith seedS0)) = some [(0x6#4, 0x1098)] ∧
      registerOf (exec (.next 16 false) (seededWith seedS0)) = some (0x8FF80123456789ABCDEFFEDCBA987654#128, 16) := by
  decide +kernel

theorem test_next_enforce :
    resultsOf (exec (.next 8 true) (seededWith seedS0)) = some [(0x6#4, 0x90)] ∧
      registerOf (exec (.next 8 true) (seededWith seedS0)) = some (0xF80123456789ABCDEFFEDCBA98765432#128, 8) := by
  decide +kernel

/-! The range mapper (95 section 4). -/

theorem test_rstream :
    resultsOf (exec (.rstream 10 20 4) (seededWith seedS1)) =
      some [(0x7#4, 13), (0x7#4, 14), (0x7#4, 16), (0x7#4, 17)] ∧
    registerOf (exec (.rstream 10 20 4) (seededWith seedS1)) = some (0x8FF8DEADBEEFCAFEBABE0123456789AB#128, 16) := by
  decide +kernel

theorem test_rstream_zero_width :
    resultsOf (exec (.rstream 5 5 3) (seededWith seedS0)) = some [(0x7#4, 5), (0x7#4, 5), (0x7#4, 5)] ∧
    registerOf (exec (.rstream 5 5 3) (seededWith seedS0)) = some (0x002468ACF13579BDFFDB97530ECA8642#128, 3) := by
  decide +kernel

/-- `hA` of 95 section 4.2. -/
def digestA : Nat :=
  0x0123456789abcdef0123456789abcdef0123456789abcdef0123456789abcdef0123456789abcdef0123456789abcdef0123456789abcdef0123456789abcdef

theorem test_rhash :
    resultsOf (exec (.rhash 100 999 digestA) State.reset) = some [(0x8#4, 535)] ∧
      statusOf (exec (.rhash 100 999 digestA) State.reset) = some 0x00000010#32 := by decide +kernel

theorem test_rhash_rejected : statusOf (exec (.rhash 9 3 digestA) (seededWith seedS0)) = some 0x00000031#32 := by
  decide +kernel

/-! The cursor seed source (95 V-S10): every parity 0 gives the forced top bit alone. -/

theorem test_cursor_all_zero :
    cursorSeed 16 ((List.range 128).flatMap (fun _ => [(0, 0), (2, 2)])) =
      .seed 0x80000000000000000000000000000000 := by decide +kernel

end Sys2Proof.Tests
end

