-- ==== Sys2Proof/Tests/Witnesses.lean ====
section
/-! SUPPORT. For each statement that has hypotheses, a concrete state and operands that meet all of them together; for a statement of
several clauses, one for each, at a boundary of its range. -/

namespace Sys2Proof.Tests

open Sys2Proof.Machine

/-- An outcome that goes on to a state with a property, found by evaluation. -/
theorem goesOn {o : Host.Outcome State Fault Refusal} (p : State → Bool)
    (h : (nextState o).any p = true) : ∃ u, o = .next u ∧ p u = true := by
  cases o with
  | next u => exact ⟨u, rfl, by simpa [nextState] using h⟩
  | fault r => cases h
  | refused r => cases h

/-- An outcome that goes on. -/
theorem goesOn_some {o : Host.Outcome State Fault Refusal} (h : (nextState o).isSome = true) : ∃ u, o = .next u := by
  cases o with
  | next u => exact ⟨u, rfl⟩
  | fault r => cases h
  | refused r => cases h

/-- The completion code of an outcome's state is `OK`. -/
def isOk (s : State) : Bool := statusCode s.status = 0#4

theorem goesOn_ok {o : Host.Outcome State Fault Refusal} (h : (nextState o).any isOk = true) :
    ∃ u, o = .next u ∧ statusCode u.status = 0#4 := by
  obtain ⟨u, hu, hp⟩ := goesOn isOk h
  exact ⟨u, hu, by simpa [isOk] using hp⟩

theorem goesOn_rejected {o : Host.Outcome State Fault Refusal} (h : (nextState o).any (fun s => !isOk s) = true) :
    ∃ u, o = .next u ∧ statusCode u.status ≠ 0#4 := by
  obtain ⟨u, hu, hp⟩ := goesOn _ h
  exact ⟨u, hu, by simpa [isOk] using hp⟩

/-! Decoding and the step. -/

theorem witness_ResetInputForgetsEverything :
    ({ seededWith seedS0 with port := [.reset] } : State).port = .reset :: [] := rfl

theorem witness_IdleStepChangesNothing : (seededWith seedS0).port = [] := by decide

theorem witness_StepRunsThePresentedCommand :
    (presented 0x60000008#32).port = .command (bareTransfer 0x60000008#32) :: [] ∧
      decode (bareTransfer 0x60000008#32) = .ok (.next 8 false) := ⟨rfl, by decide⟩

theorem witness_IllegalWordsAreRejected :
    ((presented 0x60001008#32).port = .command (bareTransfer 0x60001008#32) :: [] ∧
      ∀ r ∈ opcodeMap, (bareTransfer 0x60001008#32).cw &&& r.mask ≠ r.pattern) ∧
    (opcField 0x00000000#32 = 0x0#4 ∧ 0x9#4 ≤ opcField 0x90000000#32 ∧ 0x9#4 ≤ opcField 0xFFFFFFFF#32) ∧
    ((⟨0x60000000#32, 0xFFFFF000#32⟩ : OpcodeRow) ∈ opcodeMap ∧ opcField 0x60001008#32 = opcField 0x60000000#32 ∧
      0x60001008#32 &&& 0xFFFFF000#32 &&& 0x0FFFFFFF#32 ≠ 0#32) :=
  ⟨⟨rfl, by decide⟩, by decide, by decide⟩

theorem witness_OpcodeRowsDoNotOverlap :
    (⟨0x60000000#32, 0xFFFFF000#32⟩ : OpcodeRow) ∈ opcodeMap ∧
      0x60000FFF#32 &&& 0xFFFFF000#32 = 0x60000000#32 := by decide

theorem witness_DecoderSelectsTheMatchingRow :
    decode (bareTransfer 0x300007FF#32) = .ok (.isamp 2047) ∧
      (⟨0x30000000#32, 0xFFFFF800#32⟩ : OpcodeRow) ∈ opcodeMap ∧
      (bareTransfer 0x300007FF#32).cw &&& 0xFFFFF800#32 = 0x30000000#32 := by decide

theorem witness_DecodeOfEncodeIsTheCommand :
    (Instr.rstream (-(2 ^ 1024 : Nat)) ((2 ^ 1024 : Nat) - 1) (2 ^ 32 - 1)).wf = true ∧
      (Instr.next 2047 true).wf = true := by decide +kernel

theorem witness_EncodeOfDecodeIsTheWord :
    decode { bareTransfer 0x80000000#32 with hIn := 7#512 } = .ok (.rhash 0 0 7) ∧
      opcode (.rhash 0 0 7) = 0x8#4 ∧
      decode { bareTransfer 0x70000000#32 with cntIn := 4#32 } = .ok (.rstream 0 0 4) ∧
      opcode (.rstream 0 0 4) = 0x7#4 ∧
      decode { bareTransfer 0x50000000#32 with seedIn := 9#128 } = .ok (.seed 9#128) ∧
      opcode (.seed 9#128) = 0x5#4 := by decide +kernel

theorem witness_UnreadPortsAreIrrelevant :
    (bareTransfer 0x60000008#32).cw = ({ bareTransfer 0x60000008#32 with hIn := 7#512 } : Transfer).cw ∧
      opcField (bareTransfer 0x60000008#32).cw = 0x6#4 := by decide

/-! Status and rejection. -/

theorem witness_EveryCommandRewritesStatus :
    (presented 0x80000000#32).port = .command (bareTransfer 0x80000000#32) :: [] ∧
      ∃ u, step (presented 0x80000000#32) = .next u := ⟨rfl, goesOn_some (by decide +kernel)⟩

theorem witness_RejectionWritesOnlyStatus :
    (presented 0x60000008#32).port = .command (bareTransfer 0x60000008#32) :: [] ∧
      ∃ u, step (presented 0x60000008#32) = .next u ∧ statusCode u.status ≠ 0#4 :=
  ⟨rfl, goesOn_rejected (by decide +kernel)⟩

theorem witness_RejectionRepeats :
    ∃ t, exec (.rstream 3 10 0) State.reset = .next t ∧ statusCode t.status ≠ 0#4 :=
  goesOn_rejected (by decide +kernel)

/-! The BitMatrix. -/

theorem witness_BmclrEmptiesTheMatrix :
    (bareTransfer 0x10000000#32).cw = 0x10000000#32 ∧
      opcField (bareTransfer 0x10000001#32).cw = 0x1#4 ∧ (bareTransfer 0x10000001#32).cw ≠ 0x10000000#32 ∧
      1 ≤ 512 ∧ 512 ≤ 512 := by
  decide

theorem witness_BmpushAppendsOneCell :
    (bareTransfer 0x20000001#32).cw = 0x20000000#32 + (BitVec.ofBool true).setWidth 32 ∧
      ({ State.reset with bmLen := 0x100000#21 } : State).bmLen.toNat = 2 ^ 20 ∧
      ({ State.reset with bmLen := 0xFFFFF#21 } : State).bmLen.toNat < 2 ^ 20 ∧
      State.reset.bmLen.toNat = 0 ∧ bmA.length ≤ 2 ^ 20 := by decide

/-- An arithmetic whose every index is 5. -/
def fiveArith : HenonArith where
  R := Nat
  ofNat := id
  c1 := 0
  cA := 0
  cB := 0
  rmul := fun _ _ => 0
  radd := fun _ _ => 0
  rsub := fun _ _ => 0
  rmod := fun _ _ => 0
  rfloorabs := fun _ => 5

theorem witness_StopsOutsideTheInvariant :
    2 ^ 20 < ({ State.reset with bmLen := 0x100001#21 } : State).bmLen.toNat ∧
    (1 ≤ 512 ∧ 0 < 1 ∧ 0 < ({ State.reset with bmLen := 6#21 } : State).bmLen.toNat ∧
      (∀ i, i < 0 → walkIndex fiveArith 6 1 i < 6 ∧ ∃ b, Memory.read State.reset.bm (walkIndex fiveArith 6 1 i) = some b) ∧
      walkIndex fiveArith 6 1 0 < 6 ∧ Memory.read State.reset.bm (walkIndex fiveArith 6 1 0) = none) :=
  ⟨by decide, by decide, by decide, by decide, fun i h => absurd h (Nat.not_lt_zero i), by decide, by decide⟩

/-- The `ISEED` clause, at the first iteration. The state is one no run reaches. -/
theorem witness_StopsOutsideTheInvariant_iseed :
    0 < 128 ∧ 0 < ({ State.reset with bmLen := 6#21 } : State).bmLen.toNat ∧
      (∀ i, i < 0 → walkIndex fiveArith 6 128 i < 6 ∧ ∃ b, Memory.read State.reset.bm (walkIndex fiveArith 6 128 i) = some b) ∧
      walkIndex fiveArith 6 128 0 < 6 ∧ Memory.read State.reset.bm (walkIndex fiveArith 6 128 0) = none :=
  ⟨by decide, by decide, fun i h => absurd h (Nat.not_lt_zero i), by decide, by decide⟩

theorem witness_SamplerValidatesInOrder :
    (0 < 1 ∨ 512 < 0) ∧ (513 < 1 ∨ 512 < 513) ∧ (1 ≤ 512 ∧ 512 ≤ 512 ∧ State.reset.bmLen.toNat = 0) := by decide

theorem witness_IsampEmitsTheSampledInteger :
    (1 ≤ 8 ∧ 8 ≤ 512 ∧ 0 < (loadedWith bmA).bmLen.toNat ∧ WalkInRange (binary64 .floored) 16 8 ∧
      IsSampleValue (binary64 .floored) (loadedWith bmA).bm 16 8 0x1B) ∧
    ∃ v, 1 ≤ 8 ∧ 8 ≤ 512 ∧ WalkInRange henonArith (loadedWith bmA).bmLen.toNat 8 ∧
      IsSampleValue henonArith (loadedWith bmA).bm (loadedWith bmA).bmLen.toNat 8 v := by
  have hF : iSample (binary64 .floored) (loadedWith bmA).bm 16 8 = .value 0x1B := by decide +kernel
  have hT : iSample (binary64 .trunc) (loadedWith bmA).bm 16 8 = .value 0x3A := by decide +kernel
  refine ⟨⟨by decide, by decide, by decide, iSample_value hF⟩, ?_⟩
  unfold henonArith
  cases Config.henonMod with
  | floored => exact ⟨_, by decide, by decide, iSample_value hF⟩
  | trunc => exact ⟨_, by decide, by decide, iSample_value hT⟩

/-- One written cell, so that the index 5 of `fiveArith` is outside the matrix. -/
theorem oneCell_written : CellsWritten (loadedWith [true]) := by
  intro i hi
  have h1 : (loadedWith [true]).bmLen.toNat = 1 := by decide
  obtain rfl : i = 0 := by omega
  exact ⟨true, by decide⟩

theorem witness_IndexOutOfTheMatrixIsRejected :
    512 ≤ 512 ∧ 0 < 512 ∧ 0 < (loadedWith [true]).bmLen.toNat ∧ CellsWritten (loadedWith [true]) ∧
      (∀ i, i < 0 → walkIndex fiveArith (loadedWith [true]).bmLen.toNat 512 i < (loadedWith [true]).bmLen.toNat) ∧
      (loadedWith [true]).bmLen.toNat ≤ walkIndex fiveArith (loadedWith [true]).bmLen.toNat 512 0 :=
  ⟨by decide, by decide, by decide, oneCell_written, fun i h => absurd h (Nat.not_lt_zero i), by decide⟩

theorem witness_IseedLoadsTheSampledSeed_indexOut :
    0 < 128 ∧ 0 < (loadedWith [true]).bmLen.toNat ∧ CellsWritten (loadedWith [true]) ∧
      (∀ i, i < 0 → walkIndex fiveArith (loadedWith [true]).bmLen.toNat 128 i < (loadedWith [true]).bmLen.toNat) ∧
      (loadedWith [true]).bmLen.toNat ≤ walkIndex fiveArith (loadedWith [true]).bmLen.toNat 128 0 :=
  ⟨by decide, by decide, oneCell_written, fun i h => absurd h (Nat.not_lt_zero i), by decide⟩

theorem witness_SmallestSamplesIndices :
    (0 < 1 ∧ 3 ≤ 3 ∧ 3 ≤ 2 ^ 20 ∧ 3 ≤ 2 ^ 20 ∧ 2 ^ 20 ≤ 2 ^ 20) ∧
    0 < (loadedWith [false, true]).bmLen.toNat ∧
      Memory.read (loadedWith [false, true]).bm (3 % (loadedWith [false, true]).bmLen.toNat) = some true := by decide

theorem witness_OneCellMatrixRepeatsItsBit :
    (binary64 .trunc = binary64 .trunc ∨ binary64 .trunc = exactArith .trunc) ∧ 1 ≤ 512 ∧ 512 ≤ 512 ∧
      (loadedWith [true]).bmLen.toNat = 1 ∧ Memory.read (loadedWith [true]).bm 0 = some true :=
  ⟨.inl rfl, by decide, by decide, by decide, by decide⟩

theorem witness_SamplingIsDeterministic :
    (∀ i ∈ [Instr.seed seedS0, Instr.next 8 false], loadsMatrix i = false) ∧
      ∃ t u, exec (.isamp 4) (loadedWith bmA) = .next t ∧
        execAll [Instr.seed seedS0, Instr.next 8 false] t = .next u := by
  refine ⟨by decide, ?_⟩
  have hF : iSample (binary64 .floored) (loadedWith bmA).bm (loadedWith bmA).bmLen.toNat 4 = .value 5 := by
    decide +kernel
  have hT : iSample (binary64 .trunc) (loadedWith bmA).bm (loadedWith bmA).bmLen.toNat 4 = .value 10 := by
    decide +kernel
  have key : ∃ v, iSample henonArith (loadedWith bmA).bm (loadedWith bmA).bmLen.toNat 4 = .value v := by
    unfold henonArith
    cases Config.henonMod with
    | floored => exact ⟨_, hF⟩
    | trunc => exact ⟨_, hT⟩
  obtain ⟨v, hv⟩ := key
  have ht : exec (.isamp 4) (loadedWith bmA) =
      .next (complete false ((loadedWith bmA).emitAll 0x3#4 [v])) := by
    show isampWith henonArith 4 (loadedWith bmA) = _
    rw [isampWith, if_neg (by decide), if_neg (by decide), hv]
  exact ⟨_, _, ht, rfl⟩

theorem witness_IseedLoadsTheSampledSeed :
    (bareTransfer 0x40000000#32).cw = 0x40000000#32 ∧ State.reset.bmLen.toNat = 0 ∧ 0 < (loadedWith bmB).bmLen.toNat ∧
      (∃ v, WalkInRange henonArith (loadedWith bmB).bmLen.toNat 128 ∧
        IsSampleValue henonArith (loadedWith bmB).bm (loadedWith bmB).bmLen.toNat 128 v) ∧
      ∃ t, exec (.isamp 128) (loadedWith bmB) = .next t ∧ statusCode t.status = 0#4 := by
  have hlen : (loadedWith bmB).bmLen.toNat = 160 := by decide +kernel
  have key : ∃ v, iSample henonArith (loadedWith bmB).bm (loadedWith bmB).bmLen.toNat 128 = .value v := by
    rw [hlen]
    unfold henonArith
    cases Config.henonMod with
    | floored => exact ⟨_, test_iseed_floored⟩
    | trunc => exact ⟨_, test_iseed_trunc⟩
  obtain ⟨v, hv⟩ := key
  refine ⟨rfl, rfl, by rw [hlen]; decide, ⟨v, iSample_value hv⟩, ?_⟩
  refine ⟨complete false ((loadedWith bmB).emitAll 0x3#4 [v]), ?_, (by decide : statusCode (statusWord .ok false false) = 0#4)⟩
  show isampWith henonArith 128 (loadedWith bmB) = _
  rw [isampWith, if_neg (by decide), if_neg (by rw [hlen]; decide), hv]

theorem witness_BlackFrameLoadsTheZeroSeed :
    0 < (loadedWith (List.replicate 6 false)).bmLen.toNat ∧
      (∀ i, i < 6 → Memory.read (loadedWith (List.replicate 6 false)).bm i = some false) ∧
      WalkInRange fiveArith (loadedWith (List.replicate 6 false)).bmLen.toNat 128 :=
  ⟨by decide, by decide, fun _ _ => (by decide : 5 < (loadedWith (List.replicate 6 false)).bmLen.toNat)⟩

theorem witness_ReducedIndexIsBounded : 0 < 1 ∧ 0 < 2 ^ 20 ∧ 2 ^ 20 ≤ 2 ^ 20 := by decide

/-- The coordinates of 95 V-I1, `ISAMP 4` on 16 cells. -/
theorem witness_WalkFollowsTheHenonRecurrence :
    ∃ x y : Nat → (binary64 .trunc).R, x 0 = (binary64 .trunc).ofNat (4 - 1) ∧ y 0 = (binary64 .trunc).ofNat (4 + 1) ∧
      (∀ i, x (i + 1) = (binary64 .trunc).rmod ((binary64 .trunc).radd ((binary64 .trunc).rsub (binary64 .trunc).c1
        ((binary64 .trunc).rmul (binary64 .trunc).cA ((binary64 .trunc).rmul (x i) (x i)))) (y i)) 16) ∧
      ∀ i, y (i + 1) = (binary64 .trunc).rmul (binary64 .trunc).cB (x i) :=
  ⟨fun i => (henonOrbit (binary64 .trunc) 16 4 i).1, fun i => (henonOrbit (binary64 .trunc) 16 4 i).2,
    rfl, rfl, fun _ => rfl, fun _ => rfl⟩

/-- The values that meet the clauses of `IsRounding` at a tie: 2^53 + 1 lies midway between 2^53 and 2^53 + 2. -/
theorem witness_Binary64RoundsToNearestEven :
    (2 ^ 53 ≤ 2 ^ 53) ∧ b64Val (b64Round ⟨2 ^ 53 + 1, 0⟩) = 2 ^ 53 ∧ IsBinary64 (2 ^ 53 + 2) ∧
      ((2 ^ 53 + 2 : ℚ) ≠ 2 ^ 53) ∧ |(2 ^ 53 + 2 : ℚ) - (2 ^ 53 + 1)| = |(2 ^ 53 : ℚ) - (2 ^ 53 + 1)| := by
  refine ⟨le_refl _, ?_, ⟨2 ^ 52 + 1, 1, by norm_num, by norm_num, by norm_num⟩, by norm_num, by norm_num⟩
  rw [test_round_ties.1]
  norm_num [b64Val]

/-- −1/2 on 2^53 cells: the remainder is negative and a binary64 value. -/
theorem witness_ReductionFollowsTheConvention :
    0 < 2 ^ 53 ∧ 2 ^ 53 ≤ 2 ^ 53 ∧ truncRem (b64Val ⟨-1, -1⟩) (2 ^ 53) < 0 ∧ IsBinary64 (b64Val ⟨-1, -1⟩) ∧
      0 ≤ truncRem (b64Val ⟨0, 0⟩) (2 ^ 53) := by
  refine ⟨by norm_num, le_refl _, ?_, ⟨-1, -1, by norm_num, by norm_num, by norm_num [b64Val]⟩, ?_⟩
  · norm_num [truncRem, truncQuot, b64Val]
  · norm_num [truncRem, truncQuot, b64Val]

/-! The generator. -/

theorem witness_SeedStartsANewInstance : (bareTransfer 0x50000000#32).cw = 0x50000000#32 := by decide

theorem witness_OneStepOfTheRegister : (seededWith seedS0).seeded = true := by decide

theorem witness_NextDrawsAnInteger :
    (2047 ≤ 2047 ∧ (bareTransfer 0x60000FFF#32).cw =
      0x60000000#32 + ((BitVec.ofBool true).setWidth 32 <<< 11) + BitVec.ofNat 32 2047) ∧
    ((0 < 1 ∨ 1024 < 0) ∧ (1025 < 1 ∨ 1024 < 1025)) ∧
    (1 ≤ 1024 ∧ 1024 ≤ 1024 ∧ State.reset.seeded = false) ∧
    (1 ≤ 1024 ∧ 1024 ≤ 1024 ∧ (seededWith seedS0).seeded = true) ∧ 0 < 1024 := by decide

/-- Bit 0 of the register after `j` steps is, for `i` below 128, bit `i` of the register after `j − i` steps. -/
theorem registerBit (i j : Nat) (S : Reg128) (hi : i < 128) :
    (regAfter j S).getLsbD i = (regAfter (j + i) S).getLsbD 0 := by
  induction i generalizing j with
  | zero => rfl
  | succ i ih =>
    have hshift : ∀ T : Reg128, (lfsrNext T).getLsbD i = T.getLsbD (i + 1) := by
      intro T
      have h127 : i < 127 := by omega
      simp [lfsrNext, h127, Nat.add_comm]
    rw [← hshift, show lfsrNext (regAfter j S) = regAfter (1 + j) S from (regAfter_add 1 j S).symm, ih (1 + j) (by omega)]
    congr 2
    omega

/-- The bit sequence of the seed `S0` of spec/95. -/
def seedBits (j : Nat) : Bool := (regAfter j seedS0).getLsbD 0

theorem witness_IsStream : IsStream seedS0 seedBits := by
  refine ⟨fun j hj => ?_, fun j => ?_⟩
  · have := registerBit j 0 seedS0 hj
    rw [Nat.zero_add] at this
    exact this.symm
  · have htop : ∀ T : Reg128, (lfsrNext T).getLsbD 127 = feedback T := by
      intro T
      simp [lfsrNext]
    unfold seedBits
    rw [show j + 128 = (1 + j) + 127 by omega, ← registerBit 127 (1 + j) seedS0 (by omega), regAfter_add 1 j,
      show regAfter 1 (regAfter j seedS0) = lfsrNext (regAfter j seedS0) from rfl, htop, feedback,
      registerBit 1 j _ (by omega), registerBit 2 j _ (by omega), registerBit 7 j _ (by omega)]

theorem witness_DrawsFollowTheSeedsBitSequence :
    IsStream seedS0 seedBits ∧ 1 ≤ 1024 ∧ 1024 ≤ 1024 ∧ 127 < 128 ∧
      ∃ t, exec (.seed seedS0) State.reset = .next t :=
  ⟨witness_IsStream, by decide, by decide, by decide, _, rfl⟩

theorem witness_EnforceForcesOnlyTheTopBit : 1 ≤ 1024 ∧ 1024 ≤ 1024 ∧ (seededWith seedS0).seeded = true := by decide

theorem witness_DrawsConcatenate :
    (1 ≤ 1 ∧ 1 ≤ 1023 ∧ 1 + 1023 ≤ 1024 ∧ (seededWith seedS0).seeded = true) ∧
      ∃ t u w, exec (.next 3 true) (seededWith seedS0) = .next t ∧ exec (.next 5 false) t = .next u ∧
        exec (.next (3 + 5) true) (seededWith seedS0) = .next w :=
  ⟨by decide, _, _, _, rfl, rfl, rfl⟩

theorem witness_ZeroRegisterIsAbsorbing :
    (1 ≤ 1024 ∧ 1024 ≤ 1024 ∧ (seededWith 0#128).seeded = true ∧ (seededWith 0#128).regS = 0#128) ∧
      (∀ i ∈ [Instr.next 4 false, Instr.rstream 5 5 3, Instr.bmclr], startsInstance i = false) ∧
      ∃ t, execAll [Instr.next 4 false, Instr.rstream 5 5 3, Instr.bmclr] (seededWith 0#128) = .next t :=
  ⟨by decide, by decide, goesOn_some (by decide +kernel)⟩

theorem witness_StepIsABijection :
    (∀ i ∈ [Instr.next 4 false, Instr.rstream 5 5 3, Instr.bmclr], startsInstance i = false) ∧
      (seededWith seedS0).regS ≠ 0#128 ∧
      ∃ t, execAll [Instr.next 4 false, Instr.rstream 5 5 3, Instr.bmclr] (seededWith seedS0) = .next t :=
  ⟨by decide, by decide, goesOn_some (by decide +kernel)⟩

theorem witness_GeneratorStateMachine :
    (∃ t, exec (.next 8 false) (seededWith seedS0) = .next t ∧ statusCode t.status = 0#4) ∧
      ∃ t, exec (.next 8 false) State.reset = .next t ∧ statusCode t.status ≠ 0#4 :=
  ⟨goesOn_ok (by decide +kernel), goesOn_rejected (by decide +kernel)⟩

/-! The range mapper. -/

theorem witness_RstreamDrawsABatch :
    (bareTransfer 0x70000000#32).cw = 0x70000000#32 ∧
    ((9 : Int) < 0 ∨ (3 : Int) < 0 ∨ (9 : Int) > 3) ∧
    ((0 : Int) ≤ 0 ∧ (0 : Int) ≤ ((2 ^ 1024 : Nat) : Int) ∧ 1 ≤ 1 ∧ 1024 < drawWidth 0 ((2 ^ 1024 : Nat) : Int)) ∧
    ((0 : Int) ≤ 3 ∧ (3 : Int) ≤ 10 ∧ (1 ≤ 0 → drawWidth 3 10 ≤ 1024) ∧ State.reset.seeded = false) ∧
    ((0 : Int) ≤ 0 ∧ (0 : Int) ≤ ((2 ^ 1024 - 1 : Nat) : Int) ∧
      (1 ≤ 1 → drawWidth 0 ((2 ^ 1024 - 1 : Nat) : Int) ≤ 1024) ∧ (seededWith seedS0).seeded = true) := by
  decide +kernel

theorem witness_BatchIsTheSequenceOfItsDraws :
    (0 : Int) ≤ 10 ∧ (10 : Int) ≤ 20 ∧ drawWidth 10 20 ≤ 1024 ∧ (seededWith seedS0).seeded = true ∧ 1 ≤ 1 ∧
      State.reset.seeded = false := by
  decide +kernel

theorem witness_DrawWidthIsTheBitLength :
    (0 : Int) < 1 ∧ (0 : Int) ≤ 0 ∧ (0 : Int) ≤ ((2 ^ 1024 - 1 : Nat) : Int) ∧
      fitsBound ((2 ^ 1024 - 1 : Nat) : Int) = true := by decide +kernel

theorem witness_ZeroWidthIntervalDrawsOneBit : (0 : Int) ≤ 5 ∧ (seededWith seedS0).seeded = true := by decide

theorem witness_RhashReducesTheDigest :
    (bareTransfer 0x80000000#32).cw = 0x80000000#32 ∧ ((-5 : Int) < 0 ∨ (-2 : Int) < 0 ∨ (-5 : Int) > -2) ∧
      (0 : Int) ≤ 100 ∧ (100 : Int) ≤ 999 := by decide

theorem witness_RangeResultsStayInTheInterval :
    (Instr.rstream 10 20 4).wf = true ∧
      ((∃ count, Instr.rstream 10 20 4 = .rstream 10 20 count) ∨ ∃ h, Instr.rstream 10 20 4 = .rhash 10 20 h) ∧
      ∃ t, exec (.rstream 10 20 4) (seededWith seedS0) = .next t :=
  ⟨by decide +kernel, .inl ⟨4, rfl⟩, goesOn_some (by decide +kernel)⟩

/-! The invariant and whole runs. -/

/-- A loaded and seeded block with a command presented. -/
def workingBlock : State :=
  { seededWith seedS0 with bm := [(0, true)], bmLen := 1#21, k := 3, port := [.command (bareTransfer 0x20000001#32)] }

theorem witness_Inv : Inv workingBlock where
  bm_canonical := by decide
  len_le_cap := by decide
  cells_written := by
    intro i hi
    have h1 : workingBlock.bmLen.toNat = 1 := by decide
    obtain rfl : i = 0 := by omega
    exact ⟨true, by decide⟩
  status_word := ⟨.ok, false, by decide⟩
  unseeded_no_steps := by decide
  result_ops := by decide

theorem witness_EveryStepKeepsTheInvariant : Inv workingBlock ∧ ∃ t, step workingBlock = .next t :=
  ⟨witness_Inv, goesOn_some (by decide +kernel)⟩

theorem witness_NoStepStopsUnderTheInvariant : Inv workingBlock := witness_Inv

theorem witness_MachineIsAnInstanceOfItsArithmetic :
    (presented 0x30000004#32).port = .command (bareTransfer 0x30000004#32) :: [] ∧
      decode (bareTransfer 0x30000004#32) = .ok (.isamp 4) := ⟨rfl, by decide⟩

theorem witness_EveryArithmeticKeepsTheInvariant :
    Inv workingBlock ∧ SameToAnyRun State.reset { State.reset with regS := seedS1, bm := [(4, true)] } :=
  ⟨witness_Inv, rfl, fun h => absurd h (by decide), rfl, rfl, fun i hi => absurd hi (Nat.not_lt_zero i), rfl, rfl, rfl⟩

/-- Two blocks after reset with different registers and different cells above `BM_LEN`. -/
theorem witness_NoRunTellsWhatWasNeverWritten :
    SameToAnyRun State.reset { State.reset with regS := seedS1, bm := [(4, true)] } ∧
      ∃ codes s', runCommands [bareTransfer 0x20000001#32, bareTransfer 0x60000008#32] State.reset =
        .next (codes, s') :=
  ⟨⟨rfl, fun h => absurd h (by decide), rfl, rfl, fun i hi => absurd hi (Nat.not_lt_zero i), rfl, rfl, rfl⟩,
    _, _, rfl⟩

theorem witness_CommandsTouchOnlyTheirState :
    ∃ t, exec (.rhash 100 999 7) (loadedWith bmA) = .next t ∧ drivesGenerator (.rhash 100 999 7) = false ∧
      loadsMatrix (.rhash 100 999 7) = false ∧ startsInstance (.rhash 100 999 7) = false ∧
      eventCount (.bmpush true) = 0 ∧ ∃ u, exec (.bmpush true) (seededWith seedS0) = .next u ∧
      (seededWith seedS0).seeded = true ∧ ∀ b, Instr.bmpush true = .bmpush b → 7 ≠ (seededWith seedS0).bmLen.toNat :=
  ⟨_, rfl, by decide, by decide, by decide, by decide, _, rfl, by decide, fun _ _ => by decide⟩

theorem witness_ResultStreamOnlyGrows :
    ∃ t, exec (.rstream 10 20 4) (seededWith seedS0) = .next t ∧ statusCode t.status = 0#4 :=
  goesOn_ok (by decide +kernel)

theorem witness_EveryRunEndsWithOneCodePerCommand : Inv workingBlock := witness_Inv

theorem witness_ImageSeedingLoadsThenSeeds : bmA.length ≤ 2 ^ 20 ∧ 0 < bmA.length := by decide

theorem witness_CursorSeedHasItsTopBitSet :
    (15 < 16 ∨ 32 < 15) ∧ (33 < 16 ∨ 32 < 33) ∧
      cursorSeed 16 ((List.range 128).flatMap (fun _ => [(0, 0), (2, 2)])) =
        .seed 0x80000000000000000000000000000000 := ⟨by decide, by decide, test_cursor_all_zero⟩

end Sys2Proof.Tests
end

/-! PROOFS of the family 10_state.md. First the layer later proofs build on: the fields of the status word, what each command
can do in one inversion lemma, and where a walk stops; then the obligations. -/

namespace Sys2Proof.Machine

section StatusFields

variable (c : Code) (depr seeded : Bool)

/-- The bits of the status word, field by field from the least significant (R26). -/
theorem statusWord_getLsbD (j : Nat) :
    (statusWord c depr seeded).getLsbD j =
      if j < 4 then (codeBits c).getLsbD j else
      if j = 4 then depr else
      if j = 5 then seeded else false := by
  unfold statusWord
  simp only [BitVec.getLsbD_append, BitVec.getLsbD_ofBool, BitVec.getLsbD_zero]
  grind

@[simp] theorem statusCode_statusWord : statusCode (statusWord c depr seeded) = codeBits c := by
  unfold statusCode
  ext j hj
  rw [BitVec.getElem_extractLsb', Nat.zero_add, statusWord_getLsbD, if_pos hj, BitVec.getLsbD_eq_getElem]

@[simp] theorem statusDepr_statusWord : statusDepr (statusWord c depr seeded) = depr :=
  statusWord_getLsbD c depr seeded 4

@[simp] theorem statusSeeded_statusWord : statusSeeded (statusWord c depr seeded) = seeded :=
  statusWord_getLsbD c depr seeded 5

theorem statusWord_getLsbD_high {j : Nat} (hj : 6 ≤ j) : (statusWord c depr seeded).getLsbD j = false := by
  rw [statusWord_getLsbD, if_neg (by omega), if_neg (by omega), if_neg (by omega)]

/-- Only `OK` has the number 0 (R150). -/
theorem codeBits_eq_zero {c : Code} : codeBits c = 0#4 ↔ c = .ok := by
  cases c <;> decide

end StatusFields

section Commands

/-- How a command completes `OK` under an arithmetic: the whole next state, command by command, and the checks it has passed.
`execWith_next_cases` says that nothing else can happen but a rejection. -/
inductive Completes (A : HenonArith) (s : State) : Instr → State → Prop
  | bmclr : Completes A s .bmclr (complete false (s.setBmLen 0#21))
  | bmpush {b : Bool} {m : Memory} (notFull : s.bmLen.toNat ≠ Config.bmCap)
      (written : bmWrite s.bm s.bmLen.toNat b = some m) :
      Completes A s (.bmpush b) (complete false ((s.setBm m).setBmLen (s.bmLen + 1#21)))
  | isamp {nbits v : Nat} (sampled : iSample A s.bm s.bmLen.toNat nbits = .value v) :
      Completes A s (.isamp nbits) (complete false (s.emitAll 0x3#4 [v]))
  | iseed {v : Nat} (sampled : iSample A s.bm s.bmLen.toNat 128 = .value v) :
      Completes A s .iseed (complete false (s.loadSeed (BitVec.ofNat 128 v)))
  | seed {v : Reg128} : Completes A s (.seed v) (complete false (s.loadSeed v))
  | next {n : Nat} {e : Bool} (one_le : 1 ≤ n) (le_max : n ≤ 1024) (seeded : s.seeded = true) :
      Completes A s (.next n e)
        (complete false ((s.advance (nextBits n e s.regS).1 n).emitAll 0x6#4 [(nextBits n e s.regS).2]))
  | rstream {a b : Int} {count : Nat} (bounds : badBounds a b = false) (seeded : s.seeded = true) :
      Completes A s (.rstream a b count)
        (complete false ((s.advance (drawValues a b (drawWidth a b) count s.regS).1
          (count * drawWidth a b)).emitAll 0x7#4 (drawValues a b (drawWidth a b) count s.regS).2))
  | rhash {a b : Int} {h : Nat} (bounds : badBounds a b = false) :
      Completes A s (.rhash a b h) (complete true (s.emitAll 0x8#4 [mapInto a b h]))

/-- How a command is rejected: a code other than `OK` is raised, with the advisory `DEPR` exactly for `RHASH` (R155, R139). -/
def Rejects (s : State) (i : Instr) (t : State) : Prop :=
  ∃ c, c ≠ .ok ∧ t = raise c (decide (opcode i = 0x8#4)) s

variable {A : HenonArith} {i : Instr} {s t : State}

/-- The machine's meanings are those under its own arithmetic. -/
theorem exec_eq_execWith (i : Instr) (s : State) : exec i s = execWith henonArith i s := by
  cases i <;> rfl

/-- A command that goes on is rejected or completes, under every arithmetic. -/
theorem execWith_next_cases (h : execWith A i s = .next t) : Rejects s i t ∨ Completes A s i t := by
  have rejected (c : Code) (hc : c ≠ .ok)
      (he : execWith A i s = .next (raise c (decide (opcode i = 0x8#4)) s)) : Rejects s i t :=
    ⟨c, hc, Host.Outcome.next.inj (h.symm.trans he)⟩
  have completed {u : State} (hu : Completes A s i u) (he : execWith A i s = .next u) : Completes A s i t :=
    Host.Outcome.next.inj (he.symm.trans h) ▸ hu
  cases i with
  | bmclr => exact .inr (completed .bmclr rfl)
  | bmpush b =>
    rcases execBmpush_cases b s with ⟨he, -⟩ | ⟨m, he, hm, hne⟩ | ⟨he, -⟩
    · exact .inl (rejected .errBmfull nofun he)
    · exact .inr (completed (.bmpush hne hm) he)
    · exact nomatch h.symm.trans he
  | isamp nbits =>
    rcases isampWith_cases A nbits s with ⟨he, -⟩ | ⟨he, -⟩ | ⟨v, he, hv⟩ | ⟨he, -⟩ | ⟨he, -⟩
    · exact .inl (rejected .errParam nofun he)
    · exact .inl (rejected .errPrecond nofun he)
    · exact .inr (completed (.isamp hv) he)
    · exact .inl (rejected .errBmindex nofun he)
    · exact nomatch h.symm.trans he
  | iseed =>
    rcases iseedWith_cases A s with ⟨he, -⟩ | ⟨v, he, hv⟩ | ⟨he, -⟩ | ⟨he, -⟩
    · exact .inl (rejected .errPrecond nofun he)
    · exact .inr (completed (.iseed hv) he)
    · exact .inl (rejected .errBmindex nofun he)
    · exact nomatch h.symm.trans he
  | seed v => exact .inr (completed .seed rfl)
  | next n e =>
    rcases execNext_cases n e s with ⟨he, -⟩ | ⟨he, -⟩ | ⟨he, h1, h2, hs⟩
    · exact .inl (rejected .errParam nofun he)
    · exact .inl (rejected .errUnseeded nofun he)
    · exact .inr (completed (.next h1 h2 hs) he)
  | rstream a b count =>
    rcases execRstream_cases a b count s with ⟨he, -⟩ | ⟨he, -⟩ | ⟨he, hb, hs⟩
    · exact .inl (rejected .errParam nofun he)
    · exact .inl (rejected .errUnseeded nofun he)
    · exact .inr (completed (.rstream hb hs) he)
  | rhash a b d =>
    rcases execRhash_cases a b d s with ⟨he, -⟩ | ⟨he, hb⟩
    · exact .inl (rejected .errParam nofun he)
    · exact .inr (completed (.rhash hb) he)

/-- `execWith_next_cases` for the machine's own meanings. -/
theorem exec_next_cases (h : exec i s = .next t) : Rejects s i t ∨ Completes henonArith s i t :=
  execWith_next_cases (exec_eq_execWith i s ▸ h)

/-- A rejection's whole next state. -/
theorem Rejects.state_eq (h : Rejects s i t) : t = { s with status := t.status } := by
  obtain ⟨c, -, rfl⟩ := h
  rfl

theorem Rejects.statusCode_ne (h : Rejects s i t) : statusCode t.status ≠ 0#4 := by
  obtain ⟨c, hc, rfl⟩ := h
  simpa using codeBits_eq_zero.not.2 hc

theorem Completes.status_eq (h : Completes A s i t) :
    t.status = statusWord .ok (decide (opcode i = 0x8#4)) t.seeded := by
  cases h <;> rfl

theorem Completes.statusCode_eq (h : Completes A s i t) : statusCode t.status = 0#4 := by
  rw [h.status_eq, statusCode_statusWord, codeBits_eq_zero]

end Commands

section Frames

/-! What a completing command leaves unchanged (R34), one lemma per part of the state. -/

variable {A : HenonArith} {i : Instr} {s t : State}

theorem Completes.port_eq (h : Completes A s i t) : t.port = s.port := by
  cases h <;> rfl

theorem Completes.generator_eq (h : Completes A s i t) (hd : drivesGenerator i = false) :
    t.regS = s.regS ∧ t.seeded = s.seeded ∧ t.k = s.k := by
  cases h with
  | bmclr | bmpush | isamp | rhash => exact ⟨rfl, rfl, rfl⟩
  | iseed | seed | next | rstream => cases hd

theorem Completes.seeded_eq (h : Completes A s i t) (hi : startsInstance i = false) : t.seeded = s.seeded := by
  cases h with
  | bmclr | bmpush | isamp | next | rstream | rhash => rfl
  | iseed | seed => cases hi

theorem Completes.seeded_of_startsInstance (h : Completes A s i t) (hi : startsInstance i = true) : t.seeded = true := by
  cases h with
  | bmclr | bmpush | isamp | next | rstream | rhash => cases hi
  | iseed | seed => rfl

theorem Completes.matrix_eq (h : Completes A s i t) (hl : loadsMatrix i = false) :
    t.bm = s.bm ∧ t.bmLen = s.bmLen := by
  cases h with
  | bmclr | bmpush => cases hl
  | isamp | iseed | seed | next | rstream | rhash => exact ⟨rfl, rfl⟩

/-- The only cell a command can change is the one at `BM_LEN`, and only a push changes it. -/
theorem Completes.read_eq (h : Completes A s i t) {a : Nat} (ha : ∀ b, i = .bmpush b → a ≠ s.bmLen.toNat) :
    Memory.read t.bm a = Memory.read s.bm a := by
  cases h with
  | bmpush notFull written =>
    obtain ⟨-, hread, -⟩ := bmWrite_cases written
    exact (hread a).trans (if_neg (ha _ rfl))
  | bmclr | isamp | iseed | seed | next | rstream | rhash => rfl

end Frames

section Results

variable {A : HenonArith} {i : Instr} {s t : State}

theorem drawValues_length (a b : Int) (nbits count : Nat) (S : Reg128) :
    (drawValues a b nbits count S).2.length = count := by
  induction count generalizing S with
  | zero => rfl
  | succ count ih => exact congrArg (· + 1) (ih _)

/-- A completing command appends its number of values, under its own operation code (R27). -/
theorem Completes.res_eq (h : Completes A s i t) :
    ∃ vs : List Nat, t.res = s.res ++ vs.map (event (opcode i)) ∧ vs.length = eventCount i := by
  cases h with
  | bmclr | bmpush | iseed | seed => exact ⟨[], (List.append_nil _).symm, rfl⟩
  | isamp | next | rhash => exact ⟨[_], rfl, rfl⟩
  | rstream => exact ⟨_, rfl, drawValues_length ..⟩

theorem Completes.res_eq_of_eventCount_eq_zero (h : Completes A s i t) (hz : eventCount i = 0) : t.res = s.res := by
  obtain ⟨vs, hres, hlen⟩ := h.res_eq
  obtain rfl : vs = [] := List.eq_nil_of_length_eq_zero (hlen.trans hz)
  simpa using hres

end Results

section Invariant

variable {A : HenonArith} {i : Instr} {s t : State}

/-- The invariant does not speak of what the host presents next. -/
theorem Inv.setPort (hs : Inv s) (p : List HostInput) : Inv { s with port := p } :=
  { hs with }

/-- Rewriting `STATUS` with a code and the current `SEEDED` keeps the invariant. -/
theorem Inv.raise (hs : Inv s) (c : Code) (depr : Bool) : Inv (raise c depr s) :=
  { hs with status_word := ⟨c, depr, rfl⟩ }

theorem inv_reset : Inv State.reset where
  bm_canonical := reset_memory_wf
  len_le_cap := Nat.zero_le _
  cells_written := fun _ hi => absurd hi (Nat.not_lt_zero _)
  status_word := ⟨.ok, false, rfl⟩
  unseeded_no_steps := fun _ => rfl
  result_ops := fun _ he => absurd he List.not_mem_nil

/-- A push below the capacity counts one cell more: the 21 bits of `BM_LEN` do not wrap (R25). -/
theorem bmLen_push_toNat {n : LenWord} (hn : n.toNat < Config.bmCap) : (n + 1#21).toNat = n.toNat + 1 := by
  simp only [Config.bmCap] at hn
  rw [BitVec.toNat_add, BitVec.toNat_ofNat]
  omega

/-- The cell a push writes is the one cell it adds to the matrix. -/
theorem cellsWritten_push {m : Memory} {b : Bool} (hs : CellsWritten s)
    (hm : bmWrite s.bm s.bmLen.toNat b = some m) : CellsWritten ((s.setBm m).setBmLen (s.bmLen + 1#21)) := by
  obtain ⟨hcap, hread, -⟩ := bmWrite_cases hm
  intro j hj
  simp only [setBmLen_bmLen, setBmLen_bm, setBm_bm, bmLen_push_toNat hcap] at hj ⊢
  rw [hread]
  split
  · exact ⟨b, rfl⟩
  · exact hs j (by omega)

/-- The operation codes of the four emitting commands, as `Inv.result_ops` lists them (R27). -/
abbrev IsResultOp (op : BitVec 4) : Prop := op = 0x3#4 ∨ op = 0x6#4 ∨ op = 0x7#4 ∨ op = 0x8#4

/-- Events appended under the code of an emitting command keep `RES` a list of result events. -/
theorem result_ops_append {events : List Event} {op : BitVec 4} {vs : List Nat}
    (hs : ∀ e ∈ events, IsResultOp e.op) (hop : IsResultOp op) :
    ∀ e ∈ events ++ vs.map (event op), IsResultOp e.op := by
  simp only [List.mem_append, List.mem_map]
  rintro e (he | ⟨v, -, rfl⟩)
  · exact hs e he
  · exact hop

theorem Rejects.keeps_inv (h : Rejects s i t) (hs : Inv s) : Inv t := by
  obtain ⟨c, -, rfl⟩ := h
  exact hs.raise c _

/-- Each completing command keeps the invariant: the fields listed are the ones it touches. -/
theorem Completes.keeps_inv (h : Completes A s i t) (hs : Inv s) : Inv t := by
  have status := h.status_eq
  cases h with
  | bmclr =>
    exact { hs with
      len_le_cap := Nat.zero_le _
      cells_written := fun _ hj => absurd hj (Nat.not_lt_zero _)
      status_word := ⟨_, _, status⟩ }
  | bmpush _ written =>
    obtain ⟨hcap, -, hwf⟩ := bmWrite_cases written
    exact { hs with
      bm_canonical := hwf hs.bm_canonical
      len_le_cap := (bmLen_push_toNat hcap).trans_le hcap
      cells_written := cellsWritten_push hs.cells_written written
      status_word := ⟨_, _, status⟩ }
  | isamp | rhash =>
    exact { hs with
      status_word := ⟨_, _, status⟩
      result_ops := result_ops_append hs.result_ops (by decide) }
  | iseed | seed =>
    exact { hs with
      status_word := ⟨_, _, status⟩
      unseeded_no_steps := nofun }
  | next _ _ seeded | rstream _ seeded =>
    exact { hs with
      status_word := ⟨_, _, status⟩
      unseeded_no_steps := fun unseeded => absurd (seeded.symm.trans unseeded) nofun
      result_ops := result_ops_append hs.result_ops (by decide) }

/-- Every command keeps the invariant, under every arithmetic. -/
theorem execWith_keeps_inv (hs : Inv s) (h : execWith A i s = .next t) : Inv t :=
  (execWith_next_cases h).elim (·.keeps_inv hs) (·.keeps_inv hs)

theorem exec_keeps_inv (hs : Inv s) (h : exec i s = .next t) : Inv t :=
  execWith_keeps_inv hs (exec_eq_execWith i s ▸ h)

/-- A step keeps the invariant when the meanings it runs keep it. -/
theorem stepBy_keeps_inv {meaning : Instr → State → Host.Outcome State Fault Refusal}
    (hm : ∀ {i s t}, Inv s → meaning i s = .next t → Inv t) (hs : Inv s) (h : stepBy meaning s = .next t) : Inv t := by
  rcases stepBy_cases meaning s with ⟨-, he⟩ | ⟨rest, -, he⟩ | ⟨_, rest, _, -, -, he⟩ | ⟨_, rest, _, -, -, he⟩
  · exact Host.Outcome.next.inj (he.symm.trans h) ▸ hs
  · exact Host.Outcome.next.inj (he.symm.trans h) ▸ inv_reset.setPort rest
  · exact Host.Outcome.next.inj (he.symm.trans h) ▸ (hs.setPort rest).raise .errIllegal false
  · exact hm (hs.setPort rest) (he.symm.trans h)

end Invariant

section Walks

/-- A walk that reads written cells up to iteration `j`, and there comes to a cell of the matrix that nothing has written, ends
at it. -/
theorem iSample_unwritten {A : HenonArith} {m : Memory} {N nbits j : Nat} (hj : j < nbits)
    (hpre : ∀ i, i < j → walkIndex A N nbits i < N ∧ ∃ b, Memory.read m (walkIndex A N nbits i) = some b)
    (hin : walkIndex A N nbits j < N) (hnone : Memory.read m (walkIndex A N nbits j) = none) :
    iSample A m N nbits = .unwritten := by
  rcases iSample_cases A m N nbits with ⟨v, -, -, -, hbits⟩ | ⟨j', -, hpre', ⟨-, hout⟩ | ⟨he, -⟩⟩
  · exact nomatch hnone.symm.trans (hbits j hj)
  · rcases Nat.lt_trichotomy j j' with hlt | rfl | hlt
    · obtain ⟨-, b, hb⟩ := hpre' j hlt
      exact nomatch hnone.symm.trans hb
    · omega
    · have := (hpre j' hlt).1
      omega
  · exact he

theorem isampWith_unwritten {A : HenonArith} {nbits : Nat} {s : State} (h1 : 1 ≤ nbits) (h2 : nbits ≤ 512)
    (hlen : 0 < s.bmLen.toNat) (hw : iSample A s.bm s.bmLen.toNat nbits = .unwritten) :
    isampWith A nbits s = .fault .bmCellUnwritten := by
  rcases isampWith_cases A nbits s with ⟨-, hn⟩ | ⟨-, h0⟩ | ⟨v, -, hv⟩ | ⟨-, hb⟩ | ⟨he, -⟩
  · omega
  · omega
  · exact nomatch hw.symm.trans hv
  · exact nomatch hw.symm.trans hb
  · exact he

theorem iseedWith_unwritten {A : HenonArith} {s : State} (hlen : 0 < s.bmLen.toNat)
    (hw : iSample A s.bm s.bmLen.toNat 128 = .unwritten) : iseedWith A s = .fault .bmCellUnwritten := by
  rcases iseedWith_cases A s with ⟨-, h0⟩ | ⟨v, -, hv⟩ | ⟨-, hb⟩ | ⟨he, -⟩
  · omega
  · exact nomatch hw.symm.trans hv
  · exact nomatch hw.symm.trans hb
  · exact he

theorem execBmpush_above_cap {b : Bool} {s : State} (h : Config.bmCap < s.bmLen.toNat) :
    execBmpush b s = .fault .bmAddress := by
  rcases execBmpush_cases b s with ⟨-, hcap⟩ | ⟨m, -, hm, -⟩ | ⟨he, -⟩
  · omega
  · have := (bmWrite_cases hm).1
    omega
  · exact he

end Walks

/-- Settles O44: an idle step, a reset, an illegal word and each command keep the invariant; the commands do by the case split of
`Completes.keeps_inv`. -/
theorem everyStepKeepsTheInvariant : Obligations.EveryStepKeepsTheInvariant :=
  fun _ _ hs h => stepBy_keeps_inv exec_keeps_inv hs h

/-- Settles O18: the push above the capacity, and both sampling commands at the first unwritten cell of their walk. -/
theorem stopsOutsideTheInvariant : Obligations.StopsOutsideTheInvariant := by
  refine ⟨fun b s h => execBmpush_above_cap h, ?_, ?_⟩
  · intro A nbits j s hmax hj hlen hpre hin hnone
    exact isampWith_unwritten (by omega) hmax hlen (iSample_unwritten hj hpre hin hnone)
  · intro A j s hj hlen hpre hin hnone
    exact iseedWith_unwritten hlen (iSample_unwritten hj hpre hin hnone)

/-- Settles O47: a rejection touches only `STATUS`, and each part of the state has its frame lemma for a completing command. -/
theorem commandsTouchOnlyTheirState : Obligations.CommandsTouchOnlyTheirState := by
  intro i s t h
  rcases exec_next_cases h with ⟨c, -, rfl⟩ | hc
  · simp
  · refine ⟨hc.port_eq, hc.generator_eq, hc.seeded_eq, fun seeded => ?_, hc.matrix_eq, fun _ => hc.read_eq,
      hc.res_eq_of_eventCount_eq_zero⟩
    cases hi : startsInstance i with
    | true => exact hc.seeded_of_startsInstance hi
    | false => exact (hc.seeded_eq hi).trans seeded

/-- Settles O48: a rejection appends nothing and has another code; a completion appends what `Completes.res_eq` says. -/
theorem resultStreamOnlyGrows : Obligations.ResultStreamOnlyGrows := by
  intro i s t h
  rcases exec_next_cases h with hr | hc
  · refine ⟨[], ?_, fun _ he => absurd he List.not_mem_nil, by rw [if_neg hr.statusCode_ne]; rfl⟩
    rw [hr.state_eq, List.append_nil]
  · obtain ⟨vs, hres, hlen⟩ := hc.res_eq
    refine ⟨vs.map (event (opcode i)), hres, fun e he => ?_, ?_⟩
    · obtain ⟨v, -, rfl⟩ := List.mem_map.1 he
      rfl
    · rw [if_pos hc.statusCode_eq, List.length_map, hlen]

/-- Settles O1: an empty matrix has every index out of range; the rest are the fields of the reset state. -/
theorem resetLeavesTheStatedValues : Obligations.ResetLeavesTheStatedValues :=
  ⟨rfl, rfl, rfl, rfl, rfl, fun i => bmRead_outOfRange.2 (Nat.zero_le i)⟩

/-- Settles O12, field by field. -/
theorem statusWordHasTheStatedFields : Obligations.StatusWordHasTheStatedFields :=
  ⟨fun c depr seeded =>
    ⟨statusCode_statusWord c depr seeded, statusDepr_statusWord c depr seeded, statusSeeded_statusWord c depr seeded,
      fun _ => statusWord_getLsbD_high c depr seeded⟩,
    rfl⟩

/-- Settles O43. -/
theorem invariantHoldsAtReset : Obligations.InvariantHoldsAtReset := inv_reset

end Sys2Proof.Machine

/-! PROOFS of the family 20_memory.md. -/

namespace Sys2Proof.Machine

/-- A presented command that decodes is run by whatever meanings the step is given. -/
theorem stepBy_of_command {meaning : Instr → State → Host.Outcome State Fault Refusal} {s : State} {t : Transfer}
    {rest : List HostInput} {i : Instr} (hp : s.port = .command t :: rest) (hd : decode t = .ok i) :
    stepBy meaning s = meaning i { s with port := rest } := by
  rcases stepBy_cases meaning s with
    ⟨idle, -⟩ | ⟨_, reset, -⟩ | ⟨t', _, _, hp', illegal, -⟩ | ⟨t', rest', i', hp', hd', he⟩
  · exact nomatch hp.symm.trans idle
  · exact nomatch hp.symm.trans reset
  · obtain ⟨⟨⟩, -⟩ := List.cons.inj (hp.symm.trans hp')
    exact nomatch hd.symm.trans illegal
  · obtain ⟨⟨⟩, rfl⟩ := List.cons.inj (hp.symm.trans hp')
    obtain rfl := Except.ok.inj (hd.symm.trans hd')
    exact he

/-- Settles O4: `step` is `stepBy` with the meanings of `exec`. -/
theorem stepRunsThePresentedCommand : Obligations.StepRunsThePresentedCommand :=
  fun _ _ _ _ hp hd => stepBy_of_command hp hd

end Sys2Proof.Machine

/-! PROOFS of the family 30_encoding.md. First the layers: the rows of the opcode map, the fields of a word as arithmetic on its
value, what the decoder answers (said once, in `decode_cases` and `decode_eq_ok_iff`), what the encoder builds, and what a run
of pushes leaves; then the obligations. -/

namespace Sys2Proof.Machine

section Rows

variable {w : Word} {r r' : OpcodeRow}

/-- A row fixes the operation code: its mask has every bit of `OPC` (R61, R68). -/
theorem opcField_of_row (hr : r ∈ opcodeMap) (h : w &&& r.mask = r.pattern) : opcField w = opcField r.pattern := by
  have covers : ∀ r ∈ opcodeMap, opcField r.mask = BitVec.allOnes 4 := by decide
  calc opcField w = opcField w &&& opcField r.mask := by rw [covers r hr, BitVec.and_allOnes]
    _ = opcField (w &&& r.mask) := BitVec.extractLsb'_and.symm
    _ = opcField r.pattern := by rw [h]

/-- Each row has an operation code of its own. -/
theorem row_eq_of_opcField_eq :
    ∀ r ∈ opcodeMap, ∀ r' ∈ opcodeMap, opcField r.pattern = opcField r'.pattern → r = r' := by
  decide

theorem row_unique (hr : r ∈ opcodeMap) (hr' : r' ∈ opcodeMap) (h : w &&& r.mask = r.pattern)
    (h' : w &&& r'.mask = r'.pattern) : r = r' :=
  row_eq_of_opcField_eq r hr r' hr' ((opcField_of_row hr h).symm.trans (opcField_of_row hr' h'))

theorem opcodeRow_mem (i : Instr) : opcodeRow i ∈ opcodeMap := by
  cases i <;> simp [opcodeRow, opcodeMap]

theorem exists_opcodeRow_eq (hr : r ∈ opcodeMap) : ∃ i, opcodeRow i = r := by
  simp only [opcodeMap, List.mem_cons, List.not_mem_nil, or_false] at hr
  rcases hr with rfl | rfl | rfl | rfl | rfl | rfl | rfl | rfl
  · exact ⟨.bmclr, rfl⟩
  · exact ⟨.bmpush false, rfl⟩
  · exact ⟨.isamp 0, rfl⟩
  · exact ⟨.iseed, rfl⟩
  · exact ⟨.seed 0, rfl⟩
  · exact ⟨.next 0 false, rfl⟩
  · exact ⟨.rstream 0 0 0, rfl⟩
  · exact ⟨.rhash 0 0 0, rfl⟩

theorem opcField_opcodeRow (i : Instr) : opcField (opcodeRow i).pattern = opcode i := by
  cases i <;> simp [opcField, opcodeRow, opcode]

/-- The mask of a row without operand bits keeps the whole word. -/
theorem and_fullMask (w : Word) : w &&& 0xFFFFFFFF#32 = w := BitVec.and_allOnes

/-- Under a mask of all bits from `k` up, a word is the pattern plus its `k` operand bits. -/
theorem toNat_of_highMask {p : Word} (k : Nat) (h : w &&& (BitVec.allOnes 32 <<< k) = p) :
    w.toNat = p.toNat + w.toNat % 2 ^ k := by
  have hp : p.toNat = w.toNat / 2 ^ k * 2 ^ k := by
    rw [← h, ← BitVec.shiftLeft_ushiftRight, BitVec.toNat_shiftLeft, BitVec.toNat_ushiftRight, Nat.shiftRight_eq_div_pow,
      Nat.shiftLeft_eq]
    exact Nat.mod_eq_of_lt ((Nat.div_mul_le_self _ _).trans_lt w.isLt)
  rw [hp, Nat.div_add_mod']

end Rows

section Fields

variable (w : Word)

theorem countField_eq : countField w = w.toNat % 2048 := by
  rw [countField, BitVec.extractLsb'_toNat, Nat.shiftRight_zero]

theorem dataBitField_toNat : (dataBitField w).toNat = w.toNat % 2 := by
  rw [dataBitField, ← BitVec.testBit_toNat, Nat.toNat_testBit, pow_zero, Nat.div_one]

theorem enforceField_toNat : (enforceField w).toNat = w.toNat / 2048 % 2 := by
  rw [enforceField, ← BitVec.testBit_toNat, Nat.toNat_testBit]

theorem countField_le : countField w ≤ 2047 := by
  rw [countField_eq]
  omega

theorem fitsCountField_countField : fitsCountField (countField w) = true := decide_eq_true (countField_le w)

/-- What a port of `AW` bits carries is in the range of a bound (R67). -/
theorem fitsBound_sextBound (v : BoundWord) : fitsBound (sextBound v) = true := by
  have hlo : -2 ^ 1024 ≤ v.toInt := v.le_toInt
  have hhi : v.toInt < 2 ^ 1024 := BitVec.toInt_lt
  rw [fitsBound, sextBound, Bool.and_eq_true, decide_eq_true_eq, decide_eq_true_eq, Config.boundLimit, Nat.cast_pow]
  exact ⟨hlo, hhi⟩

/-- What a port carries is below two to its width: said at a variable width, so that the power of 512 is not evaluated where
the bound of a digest is met. -/
theorem toNat_lt_two_pow {n : Nat} (v : BitVec n) : v.toNat < 2 ^ n := v.isLt

theorem sextBound_boundWord {a : Int} (h : fitsBound a = true) : sextBound (boundWord a) = a := by
  rw [fitsBound, Bool.and_eq_true, decide_eq_true_eq, decide_eq_true_eq, Config.boundLimit, Nat.cast_pow] at h
  obtain ⟨hlo, hhi⟩ := h
  exact BitVec.toInt_ofInt_eq_self (by decide) hlo hhi

theorem boundWord_sextBound (v : BoundWord) : boundWord (sextBound v) = v := BitVec.ofInt_toInt

end Fields

section Decoder

variable {t t' : Transfer} {i j : Instr}

/-- The command of an operation code, with the operands its rule reads from the fields and ports of a transfer (R67, R68). -/
def commandOf (t : Transfer) : BitVec 4 → Option Instr
  | 0x1#4 => some .bmclr
  | 0x2#4 => some (.bmpush (dataBitField t.cw))
  | 0x3#4 => some (.isamp (countField t.cw))
  | 0x4#4 => some .iseed
  | 0x5#4 => some (.seed t.seedIn)
  | 0x6#4 => some (.next (countField t.cw) (enforceField t.cw))
  | 0x7#4 => some (.rstream (sextBound t.aIn) (sextBound t.bIn) t.cntIn.toNat)
  | 0x8#4 => some (.rhash (sextBound t.aIn) (sextBound t.bIn) t.hIn.toNat)
  | _ => none

/-- The transfer is one of the command `i`: its word matches the command's row, and its fields and ports carry the operands.
`decode_eq_ok_iff` says that this is what the decoder answers. -/
structure Carries (t : Transfer) (i : Instr) : Prop where
  row : t.cw &&& (opcodeRow i).mask = (opcodeRow i).pattern
  command : commandOf t (opcode i) = some i

/-- Everything the decoder can answer (R69, R74). -/
theorem decode_cases (t : Transfer) :
    (∃ i, decode t = .ok i ∧ Carries t i) ∨
    (decode t = .error (illegalReason t.cw) ∧ ∀ r ∈ opcodeMap, t.cw &&& r.mask ≠ r.pattern) := by
  unfold decode
  split_ifs with bmclr bmpush isamp iseed seed next rstream rhash
  · exact .inl ⟨_, rfl, (and_fullMask _).trans bmclr, rfl⟩
  · exact .inl ⟨_, rfl, bmpush, rfl⟩
  · exact .inl ⟨_, rfl, isamp, rfl⟩
  · exact .inl ⟨_, rfl, (and_fullMask _).trans iseed, rfl⟩
  · exact .inl ⟨_, rfl, (and_fullMask _).trans seed, rfl⟩
  · exact .inl ⟨_, rfl, next, rfl⟩
  · exact .inl ⟨_, rfl, (and_fullMask _).trans rstream, rfl⟩
  · exact .inl ⟨_, rfl, (and_fullMask _).trans rhash, rfl⟩
  · exact .inr ⟨rfl, by simp [opcodeMap, and_fullMask, bmclr, bmpush, isamp, iseed, seed, next, rstream, rhash]⟩

theorem Carries.opcField_eq (h : Carries t i) : opcField t.cw = opcode i :=
  (opcField_of_row (opcodeRow_mem i) h.row).trans (opcField_opcodeRow i)

theorem Carries.unique (h : Carries t i) (h' : Carries t j) : i = j := by
  have hop : opcode i = opcode j := h.opcField_eq.symm.trans h'.opcField_eq
  exact Option.some.inj (h.command.symm.trans (hop ▸ h'.command))

/-- The decoder answers exactly the command a transfer carries. -/
theorem decode_eq_ok_iff : decode t = .ok i ↔ Carries t i := by
  rcases decode_cases t with ⟨j, hd, hj⟩ | ⟨hd, hno⟩
  · rw [hd]
    exact ⟨fun h => Except.ok.inj h ▸ hj, fun h => congrArg _ (hj.unique h)⟩
  · rw [hd]
    exact ⟨nofun, fun h => absurd h.row (hno _ (opcodeRow_mem i))⟩

/-- A word that matches no row is illegal (R69). -/
theorem decode_of_no_row (h : ∀ r ∈ opcodeMap, t.cw &&& r.mask ≠ r.pattern) :
    decode t = .error (illegalReason t.cw) := by
  rcases decode_cases t with ⟨i, -, hi⟩ | ⟨hd, -⟩
  · exact absurd hi.row (h _ (opcodeRow_mem i))
  · exact hd

/-- A word that matches a command's row decodes to a command of that row, whatever the ports carry (R74). -/
theorem exists_decode_of_row (h : t.cw &&& (opcodeRow i).mask = (opcodeRow i).pattern) :
    ∃ j, decode t = .ok j ∧ opcodeRow j = opcodeRow i := by
  rcases decode_cases t with ⟨j, hd, hj⟩ | ⟨-, hno⟩
  · exact ⟨j, hd, row_unique (opcodeRow_mem j) (opcodeRow_mem i) hj.row h⟩
  · exact absurd h (hno _ (opcodeRow_mem i))

/-- The ports the operation code `op` reads carry the same values on both transfers (R67). -/
structure AgreeOnPorts (op : BitVec 4) (t t' : Transfer) : Prop where
  seedIn : op = 0x5#4 → t.seedIn = t'.seedIn
  bounds : op = 0x7#4 ∨ op = 0x8#4 → t.aIn = t'.aIn ∧ t.bIn = t'.bIn
  cntIn : op = 0x7#4 → t.cntIn = t'.cntIn
  hIn : op = 0x8#4 → t.hIn = t'.hIn

/-- Each command is read from the word and its own ports only (R60). -/
theorem commandOf_congr (hcw : t.cw = t'.cw) (h : AgreeOnPorts (opcode i) t t') :
    commandOf t (opcode i) = commandOf t' (opcode i) := by
  cases i with
  | bmclr | iseed => simp only [opcode, commandOf]
  | bmpush | isamp | next => simp only [opcode, commandOf, hcw]
  | seed => simp only [opcode, commandOf, h.seedIn rfl]
  | rstream =>
    obtain ⟨ha, hb⟩ := h.bounds (.inl rfl)
    simp only [opcode, commandOf, ha, hb, h.cntIn rfl]
  | rhash =>
    obtain ⟨ha, hb⟩ := h.bounds (.inr rfl)
    simp only [opcode, commandOf, ha, hb, h.hIn rfl]

theorem Carries.congr (hcw : t.cw = t'.cw) (h : AgreeOnPorts (opcField t.cw) t t') (hi : Carries t i) : Carries t' i where
  row := hcw ▸ hi.row
  command := (commandOf_congr hcw (hi.opcField_eq ▸ h)).symm.trans hi.command

theorem decode_congr (hcw : t.cw = t'.cw) (h : AgreeOnPorts (opcField t.cw) t t') : decode t = decode t' := by
  rcases decode_cases t with ⟨i, hd, hi⟩ | ⟨hd, hno⟩
  · exact hd.trans (decode_eq_ok_iff.2 (hi.congr hcw h)).symm
  · rw [hd, decode_of_no_row (hcw ▸ hno), hcw]

/-- A presented word that is illegal is rejected, whatever meanings the step is given (R69). -/
theorem stepBy_of_illegal {meaning : Instr → State → Host.Outcome State Fault Refusal} {s : State} {t : Transfer}
    {rest : List HostInput} {e : Illegal} (hp : s.port = .command t :: rest) (hd : decode t = .error e) :
    stepBy meaning s = .next { s with port := rest, status := statusWord .errIllegal false s.seeded } := by
  rcases stepBy_cases meaning s with
    ⟨idle, -⟩ | ⟨_, reset, -⟩ | ⟨t', _, _, hp', -, he⟩ | ⟨t', _, i', hp', hd', -⟩
  · exact nomatch hp.symm.trans idle
  · exact nomatch hp.symm.trans reset
  · obtain ⟨-, rfl⟩ := List.cons.inj (hp.symm.trans hp')
    exact he
  · obtain ⟨⟨⟩, -⟩ := List.cons.inj (hp.symm.trans hp')
    exact nomatch hd.symm.trans hd'

end Decoder

section Encoder

/-! The words of the three formats with operand bits (R63 to R65), as arithmetic on their values. -/

theorem bmpushWord_toNat (b : Bool) : (encode (.bmpush b)).cw.toNat = 0x20000000 + b.toNat := by
  cases b <;> rfl

theorem isampWord_toNat {n : Nat} (hn : n ≤ 2047) : (encode (.isamp n)).cw.toNat = 0x30000000 + n := by
  change (0x30000000#32 + BitVec.ofNat 32 n).toNat = _
  rw [BitVec.toNat_add, BitVec.toNat_ofNat, BitVec.toNat_ofNat]
  omega

theorem nextWord_toNat (e : Bool) {n : Nat} (hn : n ≤ 2047) :
    (encode (.next n e)).cw.toNat = 0x60000000 + 2048 * e.toNat + n := by
  have flag : (0x60000000#32 + ((BitVec.ofBool e).setWidth 32 <<< 11)).toNat = 0x60000000 + 2048 * e.toNat := by
    cases e <;> rfl
  have := e.toNat_le
  change (0x60000000#32 + ((BitVec.ofBool e).setWidth 32 <<< 11) + BitVec.ofNat 32 n).toNat = _
  rw [BitVec.toNat_add, flag, BitVec.toNat_ofNat]
  omega

theorem toNat_ofNat_of_lt {w n : Nat} (h : n < 2 ^ w) : (BitVec.ofNat w n).toNat = n := by
  rw [BitVec.toNat_ofNat, Nat.mod_eq_of_lt h]

theorem le_of_fitsCountField {n : Nat} (h : fitsCountField n = true) : n ≤ 2047 := of_decide_eq_true h

variable {t : Transfer} {i : Instr}

/-- Encoding puts the command's row in the word: the laws of the opcode map, command by command. -/
theorem encode_row (h : i.wf = true) : (encode i).cw &&& (opcodeRow i).mask = (opcodeRow i).pattern := by
  have law : Laws.TableRow.Statement i := by
    cases i with
    | bmclr => exact Laws.TableRow.bmclr
    | bmpush b => exact Laws.TableRow.bmpush b
    | isamp n => exact Laws.TableRow.isamp n
    | iseed => exact Laws.TableRow.iseed
    | seed v => exact Laws.TableRow.seed v
    | next n e => exact Laws.TableRow.next n e
    | rstream a b count => exact Laws.TableRow.rstream a b count
    | rhash a b d => exact Laws.TableRow.rhash a b d
  exact (law h).1

/-- Each operand is read back from the field or port the encoder put it in. -/
theorem commandOf_encode (h : i.wf = true) : commandOf (encode i) (opcode i) = some i := by
  cases i with
  | bmclr | iseed | seed => rfl
  | bmpush b => cases b <;> rfl
  | isamp n =>
    have hn : n ≤ 2047 := le_of_fitsCountField h
    have count : countField (encode (.isamp n)).cw = n := by
      rw [countField_eq, isampWord_toNat hn]
      omega
    simp only [opcode, commandOf, count]
  | next n e =>
    have hn : n ≤ 2047 := le_of_fitsCountField h
    have count : countField (encode (.next n e)).cw = n := by
      rw [countField_eq, nextWord_toNat e hn]
      omega
    have flag : enforceField (encode (.next n e)).cw = e := by
      have flag_toNat : (enforceField (encode (.next n e)).cw).toNat = e.toNat := by
        have := e.toNat_le
        rw [enforceField_toNat, nextWord_toNat e hn]
        omega
      rw [Bool.eq_iff_iff, ← Bool.toNat_eq_one, ← Bool.toNat_eq_one, flag_toNat]
    simp only [opcode, commandOf, count, flag]
  | rstream a b count =>
    simp only [Instr.wf, Bool.and_eq_true] at h
    obtain ⟨⟨ha, hb⟩, hc⟩ := h
    have count_eq : (BitVec.ofNat 32 count).toNat = count := toNat_ofNat_of_lt (of_decide_eq_true hc)
    simp only [opcode, commandOf, encode, sextBound_boundWord ha, sextBound_boundWord hb, count_eq]
  | rhash a b d =>
    simp only [Instr.wf, Bool.and_eq_true] at h
    obtain ⟨⟨ha, hb⟩, hd⟩ := h
    have digest_eq : (BitVec.ofNat 512 d).toNat = d := toNat_ofNat_of_lt (of_decide_eq_true hd)
    simp only [opcode, commandOf, encode, sextBound_boundWord ha, sextBound_boundWord hb, digest_eq]

theorem encode_carries (h : i.wf = true) : Carries (encode i) i := ⟨encode_row h, commandOf_encode h⟩

/-- Every command a transfer carries can be written down (R72). -/
theorem Carries.wf (h : Carries t i) : i.wf = true := by
  have command := h.command
  cases i with
  | bmclr | bmpush | iseed | seed => rfl
  | isamp n =>
    obtain rfl := Instr.isamp.inj (Option.some.inj command)
    exact fitsCountField_countField _
  | next n e =>
    obtain ⟨rfl, rfl⟩ := Instr.next.inj (Option.some.inj command)
    exact fitsCountField_countField _
  | rstream a b count =>
    obtain ⟨rfl, rfl, rfl⟩ := Instr.rstream.inj (Option.some.inj command)
    simp only [Instr.wf, fitsBound_sextBound, Bool.true_and]
    exact decide_eq_true (toNat_lt_two_pow t.cntIn)
  | rhash a b d =>
    obtain ⟨rfl, rfl, rfl⟩ := Instr.rhash.inj (Option.some.inj command)
    simp only [Instr.wf, fitsBound_sextBound, Bool.true_and]
    exact decide_eq_true (toNat_lt_two_pow t.hIn)

/-- The word of a transfer is its row's pattern and its operand bits, which the encoder puts back (R74). -/
theorem Carries.encode_cw (h : Carries t i) : (encode i).cw = t.cw := by
  obtain ⟨row, command⟩ := h
  cases i with
  | bmclr | iseed | seed | rstream | rhash => exact row.symm.trans (and_fullMask t.cw)
  | bmpush b =>
    obtain rfl := Instr.bmpush.inj (Option.some.inj command)
    apply BitVec.eq_of_toNat_eq
    rw [bmpushWord_toNat, dataBitField_toNat]
    exact (toNat_of_highMask 1 row).symm
  | isamp n =>
    obtain rfl := Instr.isamp.inj (Option.some.inj command)
    apply BitVec.eq_of_toNat_eq
    rw [isampWord_toNat (countField_le t.cw), countField_eq]
    exact (toNat_of_highMask 11 row).symm
  | next n e =>
    obtain ⟨rfl, rfl⟩ := Instr.next.inj (Option.some.inj command)
    have word : t.cw.toNat = 0x60000000 + t.cw.toNat % 4096 := toNat_of_highMask 12 row
    apply BitVec.eq_of_toNat_eq
    rw [nextWord_toNat _ (countField_le t.cw), countField_eq, enforceField_toNat]
    omega

/-- The encoder puts each operand back on the port it was read from. -/
theorem Carries.encode_ports (h : Carries t i) : AgreeOnPorts (opcode i) (encode i) t := by
  have command := h.command
  cases i with
  | bmclr | bmpush | isamp | iseed | next => constructor <;> simp [opcode]
  | seed v =>
    obtain rfl := Instr.seed.inj (Option.some.inj command)
    constructor <;> simp [opcode, encode]
  | rstream a b count =>
    obtain ⟨rfl, rfl, rfl⟩ := Instr.rstream.inj (Option.some.inj command)
    constructor <;> simp [opcode, encode, boundWord_sextBound]
  | rhash a b d =>
    obtain ⟨rfl, rfl, rfl⟩ := Instr.rhash.inj (Option.some.inj command)
    constructor <;> simp [opcode, encode, boundWord_sextBound]

end Encoder

section Pushes

/-- What a completed run of pushes leaves (R81): the bits stand above the old length in order, the cells below it are kept, and
nothing else changes but `STATUS`, which is that of a completion. -/
structure Pushed (bits : List Bool) (s u : State) : Prop where
  len : u.bmLen.toNat = s.bmLen.toNat + bits.length
  below : ∀ i, i < s.bmLen.toNat → Memory.read u.bm i = Memory.read s.bm i
  cells : ∀ i (h : i < bits.length), Memory.read u.bm (s.bmLen.toNat + i) = some bits[i]
  frame : u = { s with bm := u.bm, bmLen := u.bmLen, status := statusWord .ok false s.seeded }

variable {s u v : State} {b : Bool} {bits : List Bool} {i : Instr} {rest : List Instr}

theorem execAll_cons (h : exec i s = .next u) : execAll (i :: rest) s = execAll rest u := by
  rw [execAll, h]

theorem execAll_singleton (i : Instr) (s : State) : execAll [i] s = exec i s := by
  rw [execAll]
  cases exec i s <;> rfl

/-- `BMCLR` completes in every state (R80). -/
theorem exec_bmclr (s : State) : exec .bmclr s = .next (complete false (s.setBmLen 0#21)) := rfl

/-- Below the capacity a push completes (R81). -/
theorem exec_bmpush_of_lt (b : Bool) (h : s.bmLen.toNat < 2 ^ 20) :
    ∃ u, exec (.bmpush b) s = .next u ∧ Pushed [b] s u := by
  rcases execBmpush_cases b s with ⟨-, full⟩ | ⟨m, he, written, -⟩ | ⟨-, above⟩
  · exact absurd full h.ne
  · obtain ⟨inside, read, -⟩ := bmWrite_cases written
    refine ⟨_, he, bmLen_push_toNat inside, ?_, ?_, rfl⟩
    · exact fun i hi => (read i).trans (if_neg hi.ne)
    · intro i hi
      obtain rfl : i = 0 := Nat.lt_one_iff.1 hi
      exact (read _).trans (if_pos rfl)
  · exact absurd above h.not_gt

/-- Pushes one after another put their bits one after another. -/
theorem Pushed.cons (h : Pushed [b] s u) (h' : Pushed bits u v) : Pushed (b :: bits) s v where
  len := by rw [h'.len, h.len, List.length_singleton, List.length_cons, Nat.add_assoc, Nat.add_comm 1]
  below i hi := (h'.below i (by rw [h.len]; omega)).trans (h.below i hi)
  cells i hi := by
    have hlen : u.bmLen.toNat = s.bmLen.toNat + 1 := h.len
    cases i with
    | zero => exact (h'.below _ (by omega)).trans (h.cells 0 Nat.one_pos)
    | succ i =>
      rw [show s.bmLen.toNat + (i + 1) = u.bmLen.toNat + i by omega]
      exact h'.cells i (Nat.lt_of_succ_lt_succ hi)
  frame := by rw [h'.frame, h.frame]

/-- A run of pushes that fits the store loads all its bits, then the run goes on. -/
theorem execAll_bmpush (bits : List Bool) (rest : List Instr) (status : s.status = statusWord .ok false s.seeded)
    (fits : s.bmLen.toNat + bits.length ≤ 2 ^ 20) :
    ∃ u, execAll (bits.map .bmpush ++ rest) s = execAll rest u ∧ Pushed bits s u := by
  induction bits generalizing s with
  | nil => exact ⟨s, rfl, rfl, fun _ _ => rfl, fun i hi => absurd hi (Nat.not_lt_zero i), by rw [← status]⟩
  | cons b bits ih =>
    rw [List.length_cons] at fits
    obtain ⟨u, hu, first⟩ := exec_bmpush_of_lt b (s := s) (by omega)
    obtain ⟨v, hv, others⟩ := ih (s := u) (by rw [first.frame]) (by rw [first.len, List.length_singleton]; omega)
    exact ⟨v, (execAll_cons hu).trans hv, first.cons others⟩

end Pushes

/-- Settles O8: the encoding carries the command, so the decoder answers it. -/
theorem decodeOfEncodeIsTheCommand : Obligations.DecodeOfEncodeIsTheCommand :=
  fun _ h => decode_eq_ok_iff.2 (encode_carries h)

/-- Settles O5: a matching row would fix the operation code, and with it the bits the format requires to be zero. -/
theorem illegalWordsAreRejected : Obligations.IllegalWordsAreRejected := by
  refine ⟨fun s t rest hp hno => stepBy_of_illegal hp (decode_of_no_row hno), ?_, ?_⟩
  · intro w reserved r hr h
    have notReserved : ∀ r ∈ opcodeMap, ¬ (opcField r.pattern = 0x0#4 ∨ 0x9#4 ≤ opcField r.pattern) := by decide
    exact notReserved r hr (opcField_of_row hr h ▸ reserved)
  · intro w r hr hop hbits r' hr' h
    have zeros : ∀ r ∈ opcodeMap, r.pattern &&& 0x0FFFFFFF#32 = 0#32 := by decide
    obtain rfl : r = r' := row_eq_of_opcField_eq r hr r' hr' (hop.symm.trans (opcField_of_row hr' h))
    exact hbits (h ▸ zeros r hr)

/-- Settles O7: both directions through what the decoder can answer. -/
theorem decoderSelectsTheMatchingRow : Obligations.DecoderSelectsTheMatchingRow := by
  refine ⟨fun t i hd => ⟨opcodeRow_mem i, (decode_eq_ok_iff.1 hd).row⟩, ?_⟩
  intro t r hr h
  obtain ⟨i, rfl⟩ := exists_opcodeRow_eq hr
  exact exists_decode_of_row h

/-- Settles O9: the operands fit, and the encoder puts the row, the fields and the ports back. -/
theorem encodeOfDecodeIsTheWord : Obligations.EncodeOfDecodeIsTheWord := by
  intro t i hd
  have carried := decode_eq_ok_iff.1 hd
  have ports := carried.encode_ports
  exact ⟨carried.wf, carried.encode_cw, ports.seedIn, ports.bounds, ports.cntIn, ports.hIn⟩

/-- Settles O10: the command a transfer carries is read from its word and the ports of its operation code only. -/
theorem unreadPortsAreIrrelevant : Obligations.UnreadPortsAreIrrelevant :=
  fun _ _ hcw hseed hbounds hcnt hh => decode_congr hcw ⟨hseed, hbounds, hcnt, hh⟩

/-- Settles O6: a row fixes the operation code, and no two rows have the same one. -/
theorem opcodeRowsDoNotOverlap : Obligations.OpcodeRowsDoNotOverlap :=
  fun _ _ hr _ hr' => row_unique hr hr'

/-- Settles O50: `BMCLR` empties the matrix, and the pushes fill it from cell 0. -/
theorem imageSeedingLoadsThenSeeds : Obligations.ImageSeedingLoadsThenSeeds := by
  intro bits s hlen
  obtain ⟨u, hu, loaded⟩ :=
    execAll_bmpush (s := complete false (s.setBmLen 0#21)) bits [.iseed] rfl (by simpa using hlen)
  refine ⟨u, ?_, by simpa using loaded.len, by simpa using loaded.cells, loaded.frame⟩
  calc execAll (cliImageSeed bits) s
    _ = execAll (bits.map Instr.bmpush ++ [Instr.iseed]) (complete false (s.setBmLen 0#21)) := execAll_cons (exec_bmclr s)
    _ = execAll [.iseed] u := hu
    _ = exec .iseed u := execAll_singleton .iseed u

end Sys2Proof.Machine

/-! PROOFS of the family 41_image_seed_sampler.md. First the layers: rounding to binary64, the reduction modulo `N`, how a sample
ends and what the commands make of it, what holds under every arithmetic, and the first coordinates of the smallest samples; then
the obligations. -/

namespace Sys2Proof.Machine

section Rounding

/-! Rounding to binary64 (R86) is rounding to an integer on the grid of the multiples of `2^e`, for the `e` that leaves 53
significant bits. -/

variable {t v w r : ℚ} {n k e : ℤ}

/-- Every integer but the one within a half of `t` is at least a half away. -/
theorem half_le_abs_sub_of_ne (near : |(n : ℚ) - t| ≤ 1 / 2) (hk : k ≠ n) : 1 / 2 ≤ |(k : ℚ) - t| := by
  have apart : (1 : ℚ) ≤ |(k : ℚ) - n| := mod_cast Int.one_le_abs (sub_ne_zero.2 hk)
  have through := abs_sub_le (k : ℚ) t n
  rw [abs_sub_comm t] at through
  linarith

theorem abs_sub_le_abs_sub (near : |(n : ℚ) - t| ≤ 1 / 2) (k : ℤ) : |(n : ℚ) - t| ≤ |(k : ℚ) - t| := by
  rcases eq_or_ne k n with rfl | hk
  · exact le_rfl
  · exact near.trans (half_le_abs_sub_of_ne near hk)

theorem abs_mul_zpow_sub (a t : ℚ) (e : ℤ) : |a * 2 ^ e - t * 2 ^ e| = |a - t| * 2 ^ e := by
  rw [← sub_mul, abs_mul, abs_of_pos (a := (2 : ℚ) ^ e) (by positivity)]

/-- A significand of 54 bits is that of the power of two, which a larger exponent carries in 53. -/
theorem exists_half_of_abs_eq (hn : |n| = 2 ^ 53) : ∃ m : ℤ, n = 2 * m ∧ |m| = 2 ^ 52 ∧ m % 2 = 0 := by
  rcases (abs_eq (by norm_num)).1 hn with rfl | rfl
  · exact ⟨2 ^ 52, by norm_num, by norm_num, by norm_num⟩
  · exact ⟨-2 ^ 52, by norm_num, by norm_num, by norm_num⟩

theorem two_mul_mul_zpow (m e : ℤ) : ((2 * m : ℤ) : ℚ) * 2 ^ e = m * 2 ^ (e + 1) := by
  rw [zpow_add_one₀ two_ne_zero]
  push_cast
  ring

theorem isBinary64_of_abs_le (hn : |n| ≤ 2 ^ 53) (he : -1074 ≤ e) : IsBinary64 (n * 2 ^ e) := by
  rcases hn.lt_or_eq with lt | eq
  · exact ⟨n, e, lt, he, rfl⟩
  · obtain ⟨m, rfl, hm, -⟩ := exists_half_of_abs_eq eq
    exact ⟨m, e + 1, by rw [hm]; norm_num, by omega, two_mul_mul_zpow m e⟩

theorem evenFraction_of_abs_le (hn : |n| ≤ 2 ^ 53) (he : -1074 ≤ e) (full : e = -1074 ∨ 2 ^ 52 ≤ |n|)
    (even : n % 2 = 0) : EvenFraction (n * 2 ^ e) := by
  rcases hn.lt_or_eq with lt | eq
  · exact ⟨n, e, lt, he, full.symm, even, rfl⟩
  · obtain ⟨m, rfl, hm, hm2⟩ := exists_half_of_abs_eq eq
    exact ⟨m, e + 1, by rw [hm]; norm_num, by omega, .inl hm.ge, hm2, two_mul_mul_zpow m e⟩

/-- A binary64 value is on the grid, or it is below the grid's range of 53-bit significands. -/
theorem IsBinary64.grid_or_lt (hv : IsBinary64 v) (e : ℤ) :
    (∃ k : ℤ, v = k * 2 ^ e) ∨ (e ≠ -1074 ∧ |v| < 2 ^ 52 * 2 ^ e) := by
  obtain ⟨m, e', hm, he', rfl⟩ := hv
  rcases le_or_gt e e' with le | lt
  · obtain ⟨j, rfl⟩ := Int.le.dest le
    exact .inl ⟨m * 2 ^ j, by rw [zpow_add₀ two_ne_zero, zpow_natCast]; push_cast; ring⟩
  · refine .inr ⟨by omega, ?_⟩
    have hm' : |(m : ℚ)| < 2 ^ 53 := mod_cast hm
    calc |(m : ℚ) * 2 ^ e'| = |(m : ℚ)| * 2 ^ e' := by rw [abs_mul, abs_of_pos (a := (2 : ℚ) ^ e') (by positivity)]
      _ < 2 ^ 53 * 2 ^ e' := by gcongr
      _ ≤ 2 ^ 53 * 2 ^ (e - 1) := by gcongr <;> [norm_num; omega]
      _ = 2 ^ 52 * 2 ^ e := by rw [zpow_sub_one₀ two_ne_zero]; ring

/-- `n` is `t` rounded to an integer, ties to even, and the exponent `e` leaves `t` 53 significant bits, or fewer at the least
exponent. -/
structure RoundsOnGrid (t : ℚ) (n e : ℤ) : Prop where
  least_le : -1074 ≤ e
  fits : |t| ≤ 2 ^ 53
  full : e = -1074 ∨ 2 ^ 52 ≤ |t|
  near : |(n : ℚ) - t| ≤ 1 / 2
  even : |(n : ℚ) - t| = 1 / 2 → n % 2 = 0

theorem RoundsOnGrid.abs_le (h : RoundsOnGrid t n e) : |n| ≤ 2 ^ 53 := by
  have : |(n : ℚ)| < 2 ^ 53 + 1 := by linarith [abs_sub_abs_le_abs_sub (n : ℚ) t, h.near, h.fits]
  have : |n| < 2 ^ 53 + 1 := mod_cast this
  omega

theorem RoundsOnGrid.full_significand (h : RoundsOnGrid t n e) : e = -1074 ∨ 2 ^ 52 ≤ |n| := by
  refine h.full.imp_right fun full => ?_
  have : (2 : ℚ) ^ 52 - 1 < |(n : ℚ)| := by
    have := abs_sub_abs_le_abs_sub t n
    rw [abs_sub_comm] at this
    linarith [h.near]
  have : 2 ^ 52 - 1 < |n| := mod_cast this
  omega

/-- A binary64 value off the grid is farther from `t` than the end of the grid's range, and so than `n`. -/
theorem RoundsOnGrid.lt_of_abs_lt (h : RoundsOnGrid t n e) (he : e ≠ -1074) (small : |v| < 2 ^ 52 * 2 ^ e) :
    |(n : ℚ) * 2 ^ e - t * 2 ^ e| < |v - t * 2 ^ e| := by
  have full := h.full.resolve_left he
  obtain ⟨g, hg⟩ : ∃ g : ℤ, |(g : ℚ) - t| = |t| - 2 ^ 52 := by
    rcases abs_cases t with ⟨ht, -⟩ | ⟨ht, -⟩
    · refine ⟨2 ^ 52, ?_⟩
      rw [abs_sub_comm, abs_of_nonneg] <;> push_cast <;> linarith
    · refine ⟨-2 ^ 52, ?_⟩
      rw [abs_of_nonneg] <;> push_cast <;> linarith
  have pos : (0 : ℚ) < 2 ^ e := by positivity
  calc |(n : ℚ) * 2 ^ e - t * 2 ^ e| = |(n : ℚ) - t| * 2 ^ e := abs_mul_zpow_sub ..
    _ ≤ |(g : ℚ) - t| * 2 ^ e := mul_le_mul_of_nonneg_right (abs_sub_le_abs_sub h.near g) pos.le
    _ = |t * 2 ^ e| - 2 ^ 52 * 2 ^ e := by rw [hg, abs_mul, abs_of_pos pos]; ring
    _ < |t * 2 ^ e| - |v| := by linarith
    _ ≤ |v - t * 2 ^ e| := by rw [abs_sub_comm]; exact abs_sub_abs_le_abs_sub _ _

/-- Rounding on the grid is rounding to binary64. -/
theorem RoundsOnGrid.isRounding (h : RoundsOnGrid t n e) : IsRounding (t * 2 ^ e) (n * 2 ^ e) where
  representable := isBinary64_of_abs_le h.abs_le h.least_le
  nearest v hv := by
    rcases hv.grid_or_lt e with ⟨k, rfl⟩ | ⟨he, small⟩
    · rw [abs_mul_zpow_sub, abs_mul_zpow_sub]
      exact mul_le_mul_of_nonneg_right (abs_sub_le_abs_sub h.near k) (by positivity)
    · exact (h.lt_of_abs_lt he small).le
  tie_even v hv hne tie := by
    rcases hv.grid_or_lt e with ⟨k, rfl⟩ | ⟨he, small⟩
    · have hk : k ≠ n := fun hk => hne (hk ▸ rfl)
      have tie' : |(k : ℚ) - t| = |(n : ℚ) - t| := by
        rw [abs_mul_zpow_sub, abs_mul_zpow_sub] at tie
        exact mul_right_cancel₀ (by positivity) tie
      have half := half_le_abs_sub_of_ne h.near hk
      exact evenFraction_of_abs_le h.abs_le h.least_le h.full_significand (h.even (le_antisymm h.near (tie' ▸ half)))
    · exact absurd tie (h.lt_of_abs_lt he small).ne'

/-- A binary64 value is its own rounding. -/
theorem IsBinary64.isRounding_self (hw : IsBinary64 w) : IsRounding w w where
  representable := hw
  nearest v _ := by simp
  tie_even v _ hne tie := absurd (by simpa [sub_eq_zero] using tie) hne

/-- And it has no other. -/
theorem IsRounding.eq_of_isBinary64 (h : IsRounding w r) (hw : IsBinary64 w) : r = w := by
  have := h.nearest w hw
  rwa [sub_self, abs_zero, abs_nonpos_iff, sub_eq_zero] at this

end Rounding

section Binary64

variable {x y : B64}

theorem lt_two_pow_bitlen (m : ℕ) : m < 2 ^ bitlen m := by
  unfold bitlen
  split
  · simp_all
  · exact Nat.lt_log2_self

theorem two_pow_bitlen_le {m : ℕ} (h : m ≠ 0) : 2 ^ bitlen m ≤ 2 * m := by
  rw [bitlen, if_neg h, pow_succ']
  exact Nat.mul_le_mul_left 2 (Nat.log2_self_le h)

/-- The integer `b64Round` takes for `m / 2^sh`. -/
def halfEven (m sh : ℕ) : ℕ :=
  m / 2 ^ sh + if 2 ^ (sh - 1) < m % 2 ^ sh ∨ (m % 2 ^ sh = 2 ^ (sh - 1) ∧ m / 2 ^ sh % 2 = 1) then 1 else 0

/-- `b64Round`, both branches: a number with few enough bits is kept, another is rounded to the exponent `e`. -/
theorem b64Round_cases (x : B64) :
    (b64Round x = x ∧ bitlen x.num.natAbs ≤ 53 ∧ -1074 ≤ x.exp) ∨
    ∃ e : ℤ, ∃ sh : ℕ, b64Round x = ⟨x.num.sign * (halfEven x.num.natAbs sh : ℤ), e⟩ ∧ 1 ≤ sh ∧ x.exp + sh = e ∧
      -1074 ≤ e ∧ bitlen x.num.natAbs ≤ 53 + sh ∧ (e = -1074 ∨ bitlen x.num.natAbs = 53 + sh) := by
  unfold b64Round
  simp only
  split
  · exact .inl ⟨rfl, by omega, by omega⟩
  · exact .inr ⟨_, _, rfl, by omega, by omega, by omega, by omega, by omega⟩

/-- `halfEven` is the nearest multiple of `2^sh`, ties to even. -/
theorem halfEven_near (m : ℕ) {sh : ℕ} (hsh : 1 ≤ sh) :
    2 * |(halfEven m sh * 2 ^ sh - m : ℤ)| ≤ 2 ^ sh ∧
      (2 * |(halfEven m sh * 2 ^ sh - m : ℤ)| = 2 ^ sh → halfEven m sh % 2 = 0) := by
  obtain ⟨j, rfl⟩ := Nat.exists_eq_add_of_le' hsh
  have lt := Nat.mod_lt m (Nat.two_pow_pos (j + 1))
  have split : (m : ℤ) = (m / 2 ^ (j + 1) : ℕ) * 2 ^ (j + 1) + (m % 2 ^ (j + 1) : ℕ) :=
    mod_cast (Nat.div_add_mod' m _).symm
  unfold halfEven
  rw [Nat.add_sub_cancel]
  generalize m / 2 ^ (j + 1) = q at *
  generalize m % 2 ^ (j + 1) = r at *
  rw [split, pow_succ] at *
  generalize hH : 2 ^ j = H at *
  have hH' : (2 : ℤ) ^ j = H := mod_cast hH
  split_ifs with up
  · rw [hH', show ((q + 1 : ℕ) : ℤ) * (H * 2) - (q * (H * 2) + r) = H * 2 - r by push_cast; ring,
      abs_of_nonneg (by omega)]
    omega
  · rw [hH', show ((q + 0 : ℕ) : ℤ) * (H * 2) - (q * (H * 2) + r) = -r by push_cast; ring, abs_neg,
      abs_of_nonneg (by omega)]
    omega

/-- The sign does not enter the error of rounding a magnitude. -/
theorem abs_sign_mul_sub_div {num : ℤ} {m : ℕ} (hnum : num ≠ 0) (hm : num.natAbs = m) (n : ℕ) {d : ℚ} (hd : 0 < d) :
    |((num.sign * (n : ℤ) : ℤ) : ℚ) - num / d| = |n * d - m| / d := by
  have sign : (num : ℚ) = num.sign * (m : ℤ) := mod_cast hm ▸ (Int.sign_mul_natAbs num).symm
  have abs_sign : |(num.sign : ℚ)| = 1 := by
    rw [← Int.cast_abs, Int.abs_sign_of_ne_zero hnum, Int.cast_one]
  calc |((num.sign * (n : ℤ) : ℤ) : ℚ) - num / d|
    _ = |(num.sign : ℚ) * ((n * d - m) / d)| := by
      conv_lhs => rw [sign]
      push_cast
      congr 1
      field_simp
    _ = |n * d - m| / d := by rw [abs_mul, abs_sign, one_mul, abs_div, abs_of_pos hd]

/-- The integer `b64Round` takes rounds the number at the exponent it takes. -/
theorem roundsOnGrid_halfEven {num e : ℤ} {m sh : ℕ} (hm : num.natAbs = m) (hsh : 1 ≤ sh) (he : -1074 ≤ e)
    (le : bitlen m ≤ 53 + sh) (full : e = -1074 ∨ bitlen m = 53 + sh) :
    RoundsOnGrid (num / 2 ^ sh) (num.sign * (halfEven m sh : ℤ)) e := by
  rcases eq_or_ne num 0 with rfl | hnum
  · obtain rfl : 0 = m := hm
    have he' : e = -1074 := full.resolve_right (by rw [bitlen, if_pos rfl]; omega)
    exact ⟨he, by norm_num, .inl he', by norm_num, by norm_num⟩
  have pos : (0 : ℚ) < 2 ^ sh := by positivity
  have abs_t : |(num : ℚ) / 2 ^ sh| = m / 2 ^ sh := by
    rw [abs_div, abs_of_pos pos, ← hm, Nat.cast_natAbs, Int.cast_abs]
  have error := abs_sign_mul_sub_div hnum hm (halfEven m sh) pos
  obtain ⟨near, even⟩ := halfEven_near m hsh
  refine ⟨he, ?_, full.imp_right fun full => ?_, ?_, fun tie => ?_⟩
  · rw [abs_t, div_le_iff₀ pos, ← pow_add]
    exact_mod_cast (lt_two_pow_bitlen m).le.trans (Nat.pow_le_pow_right two_pos le)
  · have le_two_mul : 2 ^ (53 + sh) ≤ 2 * m := full ▸ two_pow_bitlen_le (hm ▸ Int.natAbs_ne_zero.2 hnum)
    have : (2 : ℚ) ^ (53 + sh) ≤ 2 * m := mod_cast le_two_mul
    rw [pow_add] at this
    rw [abs_t, le_div_iff₀ pos]
    linarith
  · have : 2 * |(halfEven m sh * 2 ^ sh - m : ℚ)| ≤ 2 ^ sh := mod_cast near
    rw [error, div_le_iff₀ pos]
    linarith
  · rw [error, div_eq_iff pos.ne'] at tie
    have : 2 * |(halfEven m sh * 2 ^ sh - m : ℚ)| = 2 ^ sh := by linarith
    have halfEven_even := even (mod_cast this)
    exact Int.emod_eq_zero_of_dvd (Dvd.dvd.mul_left (by omega) _)

theorem b64Val_eq (num e : ℤ) : b64Val ⟨num, e⟩ = num * 2 ^ e := rfl

/-- `b64Round` gives the binary64 value nearest its argument (R86). -/
theorem b64Round_isRounding (x : B64) : IsRounding (b64Val x) (b64Val (b64Round x)) := by
  rcases b64Round_cases x with ⟨eq, len, he⟩ | ⟨e, sh, eq, hsh, rfl, he, le, full⟩
  · rw [eq]
    have lt : x.num.natAbs < 2 ^ 53 := (lt_two_pow_bitlen _).trans_le (Nat.pow_le_pow_right two_pos len)
    exact IsBinary64.isRounding_self ⟨x.num, x.exp, by rw [Int.abs_eq_natAbs]; exact_mod_cast lt, he, rfl⟩
  · have val : b64Val x = x.num / 2 ^ sh * 2 ^ (x.exp + sh) := by
      rw [b64Val, zpow_add₀ two_ne_zero, zpow_natCast]
      field_simp
    rw [eq, val, b64Val_eq]
    exact (roundsOnGrid_halfEven rfl hsh he le full).isRounding

/-! The exact results that are rounded (R86). -/

theorem b64NumAt_mul_zpow {e : ℤ} (he : e ≤ x.exp) : (b64NumAt x e : ℚ) * 2 ^ e = b64Val x := by
  rw [b64NumAt, b64Val, Int.cast_mul, Int.cast_natCast, Nat.cast_pow, Nat.cast_ofNat, mul_assoc, ← zpow_natCast,
    ← zpow_add₀ two_ne_zero]
  congr 2
  omega

@[simp] theorem b64Val_exactAdd (x y : B64) : b64Val (b64ExactAdd x y) = b64Val x + b64Val y := by
  rw [b64ExactAdd, b64Val_eq, Int.cast_add, add_mul, b64NumAt_mul_zpow (min_le_left ..), b64NumAt_mul_zpow (min_le_right ..)]

@[simp] theorem b64Val_exactMul (x y : B64) : b64Val (b64ExactMul x y) = b64Val x * b64Val y := by
  rw [b64ExactMul, b64Val_eq, b64Val, b64Val, Int.cast_mul, zpow_add₀ two_ne_zero]
  ring

@[simp] theorem b64Val_neg (x : B64) : b64Val (b64Neg x) = -b64Val x := by
  rw [b64Neg, b64Val_eq, b64Val, Int.cast_neg, neg_mul]

theorem b64Mul_isRounding (x y : B64) : IsRounding (b64Val x * b64Val y) (b64Val (b64Mul x y)) :=
  b64Val_exactMul x y ▸ b64Round_isRounding _

theorem b64Add_isRounding (x y : B64) : IsRounding (b64Val x + b64Val y) (b64Val (b64Add x y)) :=
  b64Val_exactAdd x y ▸ b64Round_isRounding _

theorem b64Sub_isRounding (x y : B64) : IsRounding (b64Val x - b64Val y) (b64Val (b64Sub x y)) := by
  rw [sub_eq_add_neg, ← b64Val_neg, ← b64Val_exactAdd]
  exact b64Round_isRounding _

theorem isBinary64_intCast {n : ℤ} (hn : |n| ≤ 2 ^ 53) : IsBinary64 n := by
  simpa using isBinary64_of_abs_le (e := 0) hn (by norm_num)

theorem isBinary64_natCast {n : ℕ} (hn : n ≤ 2 ^ 53) : IsBinary64 n :=
  isBinary64_intCast (n := n) (by rw [Nat.abs_cast]; exact_mod_cast hn)

theorem b64Val_ofNat {k : ℕ} (hk : k ≤ 2 ^ 53) : b64Val (b64OfNat k) = k := by
  have rounding : IsRounding k (b64Val (b64OfNat k)) := by
    simpa [b64Val_eq, b64OfNat] using b64Round_isRounding ⟨k, 0⟩
  exact rounding.eq_of_isBinary64 (isBinary64_natCast hk)

/-- A number over a natural power of two: the two `toNat`s of the model's integer operations. -/
theorem b64Val_eq_div (x : B64) : b64Val x = ((x.num * 2 ^ x.exp.toNat : ℤ) : ℚ) / (2 ^ (-x.exp).toNat : ℕ) := by
  have hexp : x.exp = (x.exp.toNat : ℤ) - ((-x.exp).toNat : ℤ) := by omega
  have hpow : (2 : ℚ) ^ x.exp = 2 ^ x.exp.toNat / 2 ^ (-x.exp).toNat := by
    conv_lhs => rw [hexp, zpow_sub₀ two_ne_zero, zpow_natCast, zpow_natCast]
  rw [b64Val, hpow]
  push_cast
  ring

/-- `b64FloorAbs` is the exact integer part of the magnitude (R86). -/
theorem b64FloorAbs_eq (x : B64) : (b64FloorAbs x : ℤ) = ⌊|b64Val x|⌋ := by
  rw [b64Val_eq_div, abs_div, Nat.abs_cast, ← Int.cast_abs, abs_mul, abs_pow, abs_two, Rat.floor_intCast_div_natCast,
    b64FloorAbs]
  push_cast
  rfl

/-! The constants 1.4 and 0.3 as integers times powers of two. -/

theorem binary64_cA (mode : HenonMod) : (binary64 mode).cA = (⟨0x16666666666666, -52⟩ : B64) := by
  change b64OfPattern 0x3FF6666666666666#64 = _
  decide

theorem binary64_cB (mode : HenonMod) : (binary64 mode).cB = (⟨0x13333333333333, -54⟩ : B64) := by
  change b64OfPattern 0x3FD3333333333333#64 = _
  decide

end Binary64

section Reduction

/-! Reduction modulo `N` (R87), on rational numbers and as the integer operations of the two arithmetics compute it. -/

variable {v : ℚ} {N : ℕ}

theorem truncQuot_of_nonneg (h : 0 ≤ v) : truncQuot v N = ⌊v / N⌋ := if_pos h

theorem truncRem_of_nonneg (h : 0 ≤ v) : truncRem v N = v - ⌊v / N⌋ * N := by
  rw [truncRem, truncQuot_of_nonneg h]

/-- The quotient is rounded toward zero whatever the sign. -/
theorem truncQuot_neg (v : ℚ) (N : ℕ) : truncQuot (-v) N = -truncQuot v N := by
  unfold truncQuot
  rcases lt_trichotomy v 0 with hv | rfl | hv
  · rw [if_pos (by linarith), if_neg (by linarith), neg_div, Int.floor_neg]
  · simp
  · rw [if_neg (by linarith), if_pos hv.le, neg_div, Int.ceil_neg]

theorem truncRem_neg (v : ℚ) (N : ℕ) : truncRem (-v) N = -truncRem v N := by
  rw [truncRem, truncRem, truncQuot_neg]
  push_cast
  ring

theorem truncRem_mem_of_nonneg (hN : 0 < N) (h : 0 ≤ v) : 0 ≤ truncRem v N ∧ truncRem v N < N ∧ truncRem v N ≤ v := by
  have hN' : (0 : ℚ) < N := mod_cast hN
  have quot : v / N * N = v := div_mul_cancel₀ v hN'.ne'
  have quot_nonneg : (0 : ℚ) ≤ ⌊v / N⌋ := mod_cast Int.floor_nonneg.2 (div_nonneg h hN'.le)
  have le := mul_le_mul_of_nonneg_right (Int.floor_le (v / N)) hN'.le
  have lt := mul_lt_mul_of_pos_right (Int.lt_floor_add_one (v / N)) hN'
  have nonneg := mul_nonneg quot_nonneg hN'.le
  rw [truncRem_of_nonneg h]
  refine ⟨?_, ?_, ?_⟩ <;> linarith

/-- The remainder has the sign of `v`, and is smaller than `N` and no larger than `v` (R87). -/
theorem truncRem_spec (hN : 0 < N) (v : ℚ) :
    |truncRem v N| < N ∧ 0 ≤ truncRem v N * v ∧ |truncRem v N| ≤ |v| := by
  wlog h : 0 ≤ v generalizing v
  · have := this (-v) (by linarith)
    rwa [truncRem_neg, abs_neg, abs_neg, neg_mul_neg] at this
  obtain ⟨nonneg, lt, le⟩ := truncRem_mem_of_nonneg hN h
  rw [abs_of_nonneg nonneg, abs_of_nonneg h]
  exact ⟨lt, mul_nonneg nonneg h, le⟩

theorem truncRem_eq_self_of_lt (h : 0 ≤ v) (lt : v < N) : truncRem v N = v := by
  have hN : (0 : ℚ) < N := h.trans_lt lt
  rw [truncRem_of_nonneg h, Int.floor_eq_zero_iff.2 ⟨div_nonneg h hN.le, (div_lt_one hN).2 lt⟩]
  simp

theorem floor_truncRem (h : 0 ≤ v) (N : ℕ) : ⌊truncRem v N⌋ = ⌊v⌋ % N := by
  rw [truncRem_of_nonneg h, ← Int.cast_natCast, ← Int.cast_mul, Int.floor_sub_intCast, Int.emod_def, mul_comm,
    Int.cast_natCast, Int.floor_div_natCast]

/-- On a quotient of integers `trunc(v / N)` is the truncating division. -/
theorem truncQuot_div (a : ℤ) (d N : ℕ) : truncQuot (a / d) N = a.tdiv ((d * N : ℕ) : ℤ) := by
  wlog h : 0 ≤ a generalizing a
  · have := this (-a) (by omega)
    rwa [Int.cast_neg, neg_div, truncQuot_neg, Int.neg_tdiv, neg_inj] at this
  have hv : (0 : ℚ) ≤ a / d := div_nonneg (mod_cast h) d.cast_nonneg
  rw [truncQuot_of_nonneg hv, div_div, ← Nat.cast_mul, Rat.floor_intCast_div_natCast, Int.tdiv_eq_ediv_of_nonneg h]

/-- The exact arithmetic's `r0` is the stated one (R87). -/
theorem ratTruncMod_eq (v : ℚ) (N : ℕ) : ratTruncMod v N = truncRem v N := by
  have quot := truncQuot_div v.num v.den N
  rw [Rat.num_div_den] at quot
  rw [ratTruncMod, truncRem, quot]
  push_cast
  rfl

/-- The binary64 arithmetic's `r0` is the stated one, without rounding (R87). -/
theorem b64Val_truncMod (v : B64) (N : ℕ) : b64Val (b64TruncMod v N) = truncRem (b64Val v) N := by
  have pos : (0 : ℚ) < (2 ^ (-v.exp).toNat : ℕ) := by positivity
  rw [truncRem, b64Val_eq_div v, truncQuot_div, b64TruncMod]
  simp only [b64Val_eq]
  rw [zpow_neg, zpow_natCast, Int.tmod_def, Nat.mul_comm N]
  push_cast
  field_simp

theorem b64Mod_trunc (v : B64) (N : ℕ) : b64Mod .trunc v N = b64TruncMod v N := rfl

theorem ratMod_trunc (v : ℚ) (N : ℕ) : ratMod .trunc v N = truncRem v N := ratTruncMod_eq v N

theorem b64Val_nonneg {x : B64} : 0 ≤ b64Val x ↔ 0 ≤ x.num := by
  rw [b64Val, mul_nonneg_iff_of_pos_right (by positivity), Int.cast_nonneg_iff]

/-- `FLOORED` leaves an `r0` that is not negative (R87). -/
theorem b64Mod_floored_of_nonneg {v : B64} (h : 0 ≤ truncRem (b64Val v) N) : b64Mod .floored v N = b64TruncMod v N :=
  if_pos (b64Val_nonneg.1 (b64Val_truncMod v N ▸ h))

/-- To a negative `r0` it adds `N`, in one rounded addition (R87). -/
theorem b64Mod_floored_isRounding {v : B64} (hN : N ≤ 2 ^ 53) (h : truncRem (b64Val v) N < 0) :
    IsRounding (truncRem (b64Val v) N + N) (b64Val (b64Mod .floored v N)) := by
  have neg : ¬ 0 ≤ (b64TruncMod v N).num := fun h0 => absurd (b64Val_truncMod v N ▸ b64Val_nonneg.2 h0) h.not_ge
  have added : b64Mod .floored v N = b64Add (b64TruncMod v N) (b64OfNat N) := if_neg neg
  rw [added, ← b64Val_truncMod, ← b64Val_ofNat hN]
  exact b64Add_isRounding _ _

theorem ratMod_floored (v : ℚ) (N : ℕ) :
    ratMod .floored v N = if 0 ≤ truncRem v N then truncRem v N else truncRem v N + N := by
  rw [ratMod, ratTruncMod_eq]
  simp only [Rat.num_nonneg]

/-- The remainder of a binary64 value needs no more bits than the value or `N`: it is a multiple of the same power of two,
and no larger (R87). -/
theorem isBinary64_truncRem (hv : IsBinary64 v) (hN : 0 < N) (hmax : N ≤ 2 ^ 53) : IsBinary64 (truncRem v N) := by
  obtain ⟨lt, -, le⟩ := truncRem_spec hN v
  obtain ⟨m, e, hm, he, rfl⟩ := hv
  rcases le_or_gt 0 e with nonneg | neg
  · obtain ⟨j, rfl⟩ := Int.eq_ofNat_of_zero_le nonneg
    have whole : truncRem (m * 2 ^ (j : ℤ)) N =
        (m * 2 ^ j - truncQuot (m * 2 ^ (j : ℤ)) N * N : ℤ) := by
      rw [truncRem, zpow_natCast]
      push_cast
      rfl
    rw [whole] at lt ⊢
    refine isBinary64_intCast ?_
    have : |(m * 2 ^ j - truncQuot (m * 2 ^ (j : ℤ)) N * N : ℤ)| < N := mod_cast lt
    omega
  · obtain ⟨j, hj⟩ := Int.eq_ofNat_of_zero_le (a := -e) (by omega)
    obtain rfl : e = -j := by omega
    have pos : (0 : ℚ) < 2 ^ (-j : ℤ) := by positivity
    have grid : truncRem (m * 2 ^ (-j : ℤ)) N =
        (m - truncQuot (m * 2 ^ (-j : ℤ)) N * N * 2 ^ j : ℤ) * 2 ^ (-j : ℤ) := by
      rw [truncRem]
      push_cast
      rw [sub_mul, mul_assoc _ ((2 : ℚ) ^ j), ← zpow_natCast, ← zpow_add₀ two_ne_zero, add_neg_cancel, zpow_zero, mul_one]
    rw [grid] at le ⊢
    rw [abs_mul, abs_mul, mul_le_mul_iff_left₀ (by positivity)] at le
    refine ⟨_, _, lt_of_le_of_lt ?_ hm, he, rfl⟩
    exact_mod_cast le

end Reduction

section IndexBounds

/-! The index of a reduced coordinate (R89). -/

variable {N : ℕ}

theorem ratFloorAbs_eq (v : ℚ) : (ratFloorAbs v : ℤ) = ⌊|v|⌋ := by
  have h : |v| = ((v.num.natAbs : ℤ) : ℚ) / v.den := by
    conv_lhs => rw [← Rat.num_div_den v]
    rw [abs_div, Nat.abs_cast, Int.natCast_natAbs, Int.cast_abs]
  rw [h, Rat.floor_intCast_div_natCast, ratFloorAbs]
  rfl

theorem b64FloorAbs_lt_iff {x : B64} {n : ℕ} : b64FloorAbs x < n ↔ |b64Val x| < n := by
  rw [← Int.ofNat_lt, b64FloorAbs_eq, Int.floor_lt, Int.cast_natCast]

theorem ratFloorAbs_lt_iff {v : ℚ} {n : ℕ} : ratFloorAbs v < n ↔ |v| < n := by
  rw [← Int.ofNat_lt, ratFloorAbs_eq, Int.floor_lt, Int.cast_natCast]

theorem b64FloorAbs_mod_trunc_lt (v : B64) (hN : 0 < N) : b64FloorAbs (b64Mod .trunc v N) < N := by
  rw [b64FloorAbs_lt_iff, b64Mod_trunc, b64Val_truncMod]
  exact (truncRem_spec hN _).1

theorem ratFloorAbs_mod_lt (mode : HenonMod) (v : ℚ) (hN : 0 < N) : ratFloorAbs (ratMod mode v N) < N := by
  obtain ⟨lt, -, -⟩ := truncRem_spec hN v
  rw [ratFloorAbs_lt_iff]
  cases mode with
  | trunc => rwa [ratMod_trunc]
  | floored =>
    rw [ratMod_floored]
    obtain ⟨lower, -⟩ := abs_lt.1 lt
    split_ifs with h
    · exact lt
    · rw [abs_of_nonneg] <;> linarith

/-- Rounding does not cross a binary64 value. -/
theorem IsRounding.mem_Icc {w r a b : ℚ} (h : IsRounding w r) (ha : IsBinary64 a) (hb : IsBinary64 b) (le_w : a ≤ w)
    (w_le : w ≤ b) : a ≤ r ∧ r ≤ b := by
  have low := h.nearest a ha
  have high := h.nearest b hb
  rw [abs_of_nonpos (sub_nonpos.2 le_w)] at low
  rw [abs_of_nonneg (sub_nonneg.2 w_le)] at high
  constructor
  · linarith [neg_abs_le (r - w)]
  · linarith [le_abs_self (r - w)]

/-- `FLOORED` in binary64 can round up to `N` itself (R42, R96). -/
theorem b64FloorAbs_mod_floored_le (v : B64) (hN : 0 < N) (hmax : N ≤ 2 ^ 53) : b64FloorAbs (b64Mod .floored v N) ≤ N := by
  obtain ⟨lt, -, -⟩ := truncRem_spec hN (b64Val v)
  rcases le_or_gt 0 (truncRem (b64Val v) N) with nonneg | neg
  · rw [b64Mod_floored_of_nonneg nonneg]
    exact (b64FloorAbs_mod_trunc_lt v hN).le
  · obtain ⟨lower, -⟩ := abs_lt.1 lt
    obtain ⟨low, high⟩ := (b64Mod_floored_isRounding hmax neg).mem_Icc (isBinary64_natCast (Nat.zero_le _))
      (isBinary64_natCast hmax) (by push_cast; linarith) (by linarith)
    rw [Nat.cast_zero] at low
    rw [← Nat.lt_succ_iff, b64FloorAbs_lt_iff, abs_of_nonneg low]
    push_cast
    linarith

end IndexBounds

section Samples

/-! What a sample comes to, from what is known of its walk: the converses of `iSample_cases`. -/

variable {A : HenonArith} {m : Memory} {N nbits j v w : ℕ}

/-- The walk assembles one integer (R90). -/
theorem IsSampleValue.unique (hv : IsSampleValue A m N nbits v) (hw : IsSampleValue A m N nbits w) : v = w := by
  obtain ⟨v_lt, v_bits⟩ := hv
  obtain ⟨w_lt, w_bits⟩ := hw
  apply Nat.eq_of_testBit_eq
  intro i
  rcases lt_or_ge i nbits with hi | hi
  · have bit := Option.some.inj ((v_bits (nbits - 1 - i) (by omega)).symm.trans (w_bits (nbits - 1 - i) (by omega)))
    rwa [show nbits - 1 - (nbits - 1 - i) = i by omega] at bit
  · have high := Nat.pow_le_pow_right two_pos hi
    rw [Nat.testBit_eq_false_of_lt (v_lt.trans_le high), Nat.testBit_eq_false_of_lt (w_lt.trans_le high)]

/-- A walk inside the matrix ends with the integer it assembles. -/
theorem iSample_of_walkInRange (hr : WalkInRange A N nbits) (hv : IsSampleValue A m N nbits v) :
    iSample A m N nbits = .value v := by
  rcases iSample_cases A m N nbits with ⟨w, he, -, hw⟩ | ⟨j, hj, -, ⟨-, hout⟩ | ⟨-, -, hnone⟩⟩
  · rw [he, hv.unique hw]
  · exact absurd (hr j hj) hout.not_gt
  · exact nomatch hnone.symm.trans (hv.2 j hj)

theorem iSample_ne_unwritten (written : ∀ i, i < N → ∃ b, Memory.read m i = some b) :
    iSample A m N nbits ≠ .unwritten := by
  intro h
  rcases iSample_cases A m N nbits with ⟨w, he, -⟩ | ⟨j, -, -, ⟨he, -⟩ | ⟨-, hin, hnone⟩⟩
  · exact nomatch h.symm.trans he
  · exact nomatch h.symm.trans he
  · obtain ⟨b, hb⟩ := written _ hin
    exact nomatch hnone.symm.trans hb

/-- Over written cells a walk that leaves the matrix ends there (R94 (d)). -/
theorem iSample_badIndex (written : ∀ i, i < N → ∃ b, Memory.read m i = some b) (hj : j < nbits)
    (hout : N ≤ walkIndex A N nbits j) : iSample A m N nbits = .badIndex := by
  rcases iSample_cases A m N nbits with ⟨w, -, hr, -⟩ | ⟨j', -, -, ⟨he, -⟩ | ⟨he, -⟩⟩
  · exact absurd (hr j hj) hout.not_gt
  · exact he
  · exact absurd he (iSample_ne_unwritten written)

theorem pos_of_iSample_value (hn : 0 < nbits) (h : iSample A m N nbits = .value v) : 0 < N :=
  (Nat.zero_le _).trans_lt ((iSample_value h).1 0 hn)

/-- A walk inside the matrix over cells that all hold one bit assembles that bit `nbits` times. -/
theorem isSampleValue_const {b : Bool} (hr : WalkInRange A N nbits) (hm : ∀ i, i < N → Memory.read m i = some b) :
    IsSampleValue A m N nbits (if b then 2 ^ nbits - 1 else 0) := by
  refine ⟨?_, fun i hi => ?_⟩
  · have := Nat.two_pow_pos nbits
    split <;> omega
  · rw [hm _ (hr i hi)]
    cases b
    · simp
    · rw [if_pos rfl, Nat.testBit_two_pow_sub_one, decide_eq_true (by omega)]

end Samples

section Sampling

/-! `ISAMP` and `ISEED`, one equation for each way they end (R83, R92, R95). -/

variable {A : HenonArith} {nbits v : ℕ} {s t u : State}

theorem exec_iseed (s : State) : exec .iseed s = iseedWith henonArith s := rfl

theorem isampWith_illegal_width (h : nbits < 1 ∨ 512 < nbits) : isampWith A nbits s = .next (raise .errParam false s) :=
  if_pos h

theorem isampWith_empty (h1 : 1 ≤ nbits) (h2 : nbits ≤ 512) (hlen : s.bmLen.toNat = 0) :
    isampWith A nbits s = .next (raise .errPrecond false s) := by
  rw [isampWith, if_neg (by simp only [Config.issMax]; omega), if_pos hlen]

theorem isampWith_value (h1 : 1 ≤ nbits) (h2 : nbits ≤ 512) (hv : iSample A s.bm s.bmLen.toNat nbits = .value v) :
    isampWith A nbits s = .next (complete false (s.emitAll 0x3#4 [v])) := by
  rw [isampWith, if_neg (by simp only [Config.issMax]; omega), if_neg (pos_of_iSample_value h1 hv).ne', hv]

theorem isampWith_badIndex (h1 : 1 ≤ nbits) (h2 : nbits ≤ 512) (hlen : 0 < s.bmLen.toNat)
    (hb : iSample A s.bm s.bmLen.toNat nbits = .badIndex) :
    isampWith A nbits s = .next (raise .errBmindex false s) := by
  rw [isampWith, if_neg (by simp only [Config.issMax]; omega), if_neg hlen.ne', hb]

theorem iseedWith_empty (hlen : s.bmLen.toNat = 0) : iseedWith A s = .next (raise .errPrecond false s) := if_pos hlen

theorem iseedWith_value (hv : iSample A s.bm s.bmLen.toNat 128 = .value v) :
    iseedWith A s = .next (complete false (s.loadSeed (BitVec.ofNat 128 v))) := by
  rw [iseedWith, if_neg (pos_of_iSample_value (by norm_num) hv).ne', hv]

theorem iseedWith_badIndex (hlen : 0 < s.bmLen.toNat) (hb : iSample A s.bm s.bmLen.toNat 128 = .badIndex) :
    iseedWith A s = .next (raise .errBmindex false s) := by
  rw [iseedWith, if_neg hlen.ne', hb]

/-- `ISAMP` reads the matrix only: on equal matrices it ends with the same code and appends the same events (R93). -/
theorem isampWith_of_matrix_eq (hbm : u.bm = s.bm) (hlen : u.bmLen = s.bmLen) (h : isampWith A nbits s = .next t) :
    ∃ c events, t = ({ s with res := s.res ++ events } : State).finish c false ∧
      isampWith A nbits u = .next (({ u with res := u.res ++ events } : State).finish c false) := by
  have rejected (c : Code) (hs : isampWith A nbits s = .next (raise c false s))
      (hu : isampWith A nbits u = .next (raise c false u)) :
      ∃ c events, t = ({ s with res := s.res ++ events } : State).finish c false ∧
        isampWith A nbits u = .next (({ u with res := u.res ++ events } : State).finish c false) := by
    refine ⟨c, [], ?_, ?_⟩
    · rw [List.append_nil]
      exact Host.Outcome.next.inj (h.symm.trans hs)
    · rw [List.append_nil]
      exact hu
  rcases Nat.lt_or_ge nbits 1 with h1 | h1
  · exact rejected .errParam (isampWith_illegal_width (.inl h1)) (isampWith_illegal_width (.inl h1))
  rcases Nat.lt_or_ge 512 nbits with h2 | h2
  · exact rejected .errParam (isampWith_illegal_width (.inr h2)) (isampWith_illegal_width (.inr h2))
  rcases Nat.eq_zero_or_pos s.bmLen.toNat with h0 | h0
  · exact rejected .errPrecond (isampWith_empty h1 h2 h0) (isampWith_empty h1 h2 (hlen ▸ h0))
  have same : iSample A u.bm u.bmLen.toNat nbits = iSample A s.bm s.bmLen.toNat nbits := by rw [hbm, hlen]
  cases hw : iSample A s.bm s.bmLen.toNat nbits with
  | value v =>
    exact ⟨.ok, [event 0x3#4 v], Host.Outcome.next.inj (h.symm.trans (isampWith_value h1 h2 hw)),
      isampWith_value h1 h2 (same.trans hw)⟩
  | badIndex =>
    exact rejected .errBmindex (isampWith_badIndex h1 h2 h0 hw)
      (isampWith_badIndex h1 h2 (hlen ▸ h0) (same.trans hw))
  | unwritten => exact nomatch h.symm.trans (isampWith_unwritten h1 h2 h0 hw)

end Sampling

section Runs

variable {cmds : List Instr} {s t : State}

/-- What each command of a list keeps, the list keeps. -/
theorem execAll_induction {P : State → Prop} (keeps : ∀ i ∈ cmds, ∀ {s t}, P s → exec i s = .next t → P t) (hs : P s)
    (h : execAll cmds s = .next t) : P t := by
  induction cmds generalizing s with
  | nil => exact Host.Outcome.next.inj h ▸ hs
  | cons i rest ih =>
    rw [execAll] at h
    cases he : exec i s with
    | next u =>
      rw [he] at h
      exact ih (fun j hj => keeps j (List.mem_cons_of_mem i hj)) (keeps i List.mem_cons_self hs he) h
    | fault r => rw [he] at h; exact nomatch h
    | refused r => rw [he] at h; exact nomatch h

theorem exec_matrix_eq {i : Instr} (hl : loadsMatrix i = false) (h : exec i s = .next t) :
    t.bm = s.bm ∧ t.bmLen = s.bmLen := by
  rcases exec_next_cases h with ⟨c, -, rfl⟩ | hc
  · exact ⟨rfl, rfl⟩
  · exact hc.matrix_eq hl

/-- Commands that do not load leave the matrix as it is (R34). -/
theorem execAll_matrix_eq (hl : ∀ i ∈ cmds, loadsMatrix i = false) (h : execAll cmds s = .next t) :
    t.bm = s.bm ∧ t.bmLen = s.bmLen := by
  refine execAll_induction (P := fun u => u.bm = s.bm ∧ u.bmLen = s.bmLen) ?_ ⟨rfl, rfl⟩ h
  rintro i hi u w ⟨hbm, hlen⟩ he
  obtain ⟨hbm', hlen'⟩ := exec_matrix_eq (hl i hi) he
  exact ⟨hbm'.trans hbm, hlen'.trans hlen⟩

end Runs

section Words

variable {t : Transfer} {i : Instr}

/-- A transfer with a command's word, and its operands on the ports the command reads, decodes to the command (R74). -/
theorem decode_of_encode_cw (hwf : i.wf = true) (hcw : (encode i).cw = t.cw) (ports : AgreeOnPorts (opcode i) (encode i) t) :
    decode t = .ok i := by
  have carried := encode_carries hwf
  exact decode_eq_ok_iff.2 (carried.congr hcw (carried.opcField_eq ▸ ports))

/-- Only the operation codes 5, 7 and 8 read ports (R67). -/
theorem agreeOnPorts_of_lt {op : BitVec 4} (h : op < 5#4) (t t' : Transfer) : AgreeOnPorts op t t' := by
  constructor <;> intro hop <;> exfalso <;> revert h
  · rw [hop]; decide
  · rcases hop with rfl | rfl <;> decide
  · rw [hop]; decide
  · rw [hop]; decide

end Words

section Pushing

variable {s : State} {b : Bool}

theorem execBmpush_full (h : s.bmLen.toNat = Config.bmCap) : execBmpush b s = .next (raise .errBmfull false s) := if_pos h

theorem execBmpush_below (h : s.bmLen.toNat < Config.bmCap) :
    execBmpush b s = .next (complete false ((s.setBm (Memory.write s.bm s.bmLen.toNat b)).setBmLen (s.bmLen + 1#21))) := by
  rw [execBmpush, if_neg h.ne, bmWrite, if_pos h]

end Pushing

section EveryArithmetic

variable {A : HenonArith} {i : Instr} {s t : State}

/-- Under the invariant every command goes on: the cells a walk comes to are written, and a push has a cell to write. -/
theorem execWith_goes_on (A : HenonArith) (i : Instr) (hs : Inv s) : ∃ t, execWith A i s = .next t := by
  cases i with
  | bmclr | seed => exact ⟨_, rfl⟩
  | bmpush b =>
    rcases execBmpush_cases b s with ⟨he, -⟩ | ⟨m, he, -⟩ | ⟨-, above⟩
    · exact ⟨_, he⟩
    · exact ⟨_, he⟩
    · exact absurd hs.len_le_cap above.not_ge
  | isamp nbits =>
    rcases isampWith_cases A nbits s with ⟨he, -⟩ | ⟨he, -⟩ | ⟨v, he, -⟩ | ⟨he, -⟩ | ⟨-, hw⟩
    · exact ⟨_, he⟩
    · exact ⟨_, he⟩
    · exact ⟨_, he⟩
    · exact ⟨_, he⟩
    · exact absurd hw (iSample_ne_unwritten hs.cells_written)
  | iseed =>
    rcases iseedWith_cases A s with ⟨he, -⟩ | ⟨v, he, -⟩ | ⟨he, -⟩ | ⟨-, hw⟩
    · exact ⟨_, he⟩
    · exact ⟨_, he⟩
    · exact ⟨_, he⟩
    · exact absurd hw (iSample_ne_unwritten hs.cells_written)
  | next n e => rcases execNext_cases n e s with ⟨he, -⟩ | ⟨he, -⟩ | ⟨he, -⟩ <;> exact ⟨_, he⟩
  | rstream a b count => rcases execRstream_cases a b count s with ⟨he, -⟩ | ⟨he, -⟩ | ⟨he, -⟩ <;> exact ⟨_, he⟩
  | rhash a b d => rcases execRhash_cases a b d s with ⟨he, -⟩ | ⟨he, -⟩ <;> exact ⟨_, he⟩

theorem stepBy_goes_on {meaning : Instr → State → Host.Outcome State Fault Refusal}
    (hm : ∀ i {s}, Inv s → ∃ t, meaning i s = .next t) (hs : Inv s) : ∃ t, stepBy meaning s = .next t := by
  rcases stepBy_cases meaning s with ⟨-, he⟩ | ⟨rest, -, he⟩ | ⟨_, rest, _, -, -, he⟩ | ⟨_, rest, i, -, -, he⟩
  · exact ⟨_, he⟩
  · exact ⟨_, he⟩
  · exact ⟨_, he⟩
  · rw [he]
    exact hm i (hs.setPort rest)

/-! Two states that no run can tell apart stay so under each update of the state (R181). -/

theorem SameToAnyRun.refl (s : State) : SameToAnyRun s s :=
  ⟨rfl, fun _ => rfl, rfl, rfl, fun _ _ => rfl, rfl, rfl, rfl⟩

theorem SameToAnyRun.setPort (h : SameToAnyRun s t) (p : List HostInput) :
    SameToAnyRun { s with port := p } { t with port := p } :=
  { h with port_eq := rfl }

theorem SameToAnyRun.finish (h : SameToAnyRun s t) (c : Code) (depr : Bool) :
    SameToAnyRun (s.finish c depr) (t.finish c depr) :=
  { h with status_eq := by rw [finish_status, finish_status, h.seeded_eq] }

theorem SameToAnyRun.emitAll (h : SameToAnyRun s t) (op : BitVec 4) (vs : List ℕ) :
    SameToAnyRun (s.emitAll op vs) (t.emitAll op vs) :=
  { h with res_eq := by rw [emitAll_res, emitAll_res, h.res_eq] }

theorem SameToAnyRun.loadSeed (h : SameToAnyRun s t) (v : Reg128) : SameToAnyRun (s.loadSeed v) (t.loadSeed v) :=
  { h with seeded_eq := rfl, reg_eq := fun _ => rfl, k_eq := rfl }

theorem SameToAnyRun.advance (h : SameToAnyRun s t) (v : Reg128) (n : ℕ) : SameToAnyRun (s.advance v n) (t.advance v n) :=
  { h with reg_eq := fun _ => rfl, k_eq := by rw [advance_k, advance_k, h.k_eq] }

theorem SameToAnyRun.clear (h : SameToAnyRun s t) : SameToAnyRun (s.setBmLen 0#21) (t.setBmLen 0#21) :=
  { h with len_eq := rfl, cells_eq := fun i hi => absurd hi (Nat.not_lt_zero i) }

theorem SameToAnyRun.push (h : SameToAnyRun s t) (b : Bool) (hcap : s.bmLen.toNat < Config.bmCap) :
    SameToAnyRun ((s.setBm (Memory.write s.bm s.bmLen.toNat b)).setBmLen (s.bmLen + 1#21))
      ((t.setBm (Memory.write t.bm t.bmLen.toNat b)).setBmLen (t.bmLen + 1#21)) :=
  { h with
    len_eq := by rw [setBmLen_bmLen, setBmLen_bmLen, h.len_eq]
    cells_eq := by
      intro i hi
      rw [setBmLen_bmLen, bmLen_push_toNat hcap] at hi
      simp only [setBmLen_bm, setBm_bm, memory_read_write, ← h.len_eq]
      split
      · rfl
      · exact h.cells_eq i (by omega) }

theorem SameToAnyRun.iSample_eq (h : SameToAnyRun s t) (A : HenonArith) (nbits : ℕ) :
    iSample A t.bm t.bmLen.toNat nbits = iSample A s.bm s.bmLen.toNat nbits := by
  rw [← h.len_eq]
  exact (iSample_congr A nbits h.cells_eq).symm

/-- No command tells them apart, under any arithmetic. -/
theorem SameToAnyRun.execWith_sameOutcome (h : SameToAnyRun s t) (A : HenonArith) (i : Instr) :
    SameOutcome (execWith A i s) (execWith A i t) := by
  cases i with
  | bmclr => exact h.clear.finish .ok false
  | bmpush b =>
    change SameOutcome (execBmpush b s) (execBmpush b t)
    have hlen : t.bmLen.toNat = s.bmLen.toNat := by rw [h.len_eq]
    rcases Nat.lt_trichotomy s.bmLen.toNat Config.bmCap with below | full | above
    · rw [execBmpush_below below, execBmpush_below (hlen ▸ below)]
      exact (h.push b below).finish .ok false
    · rw [execBmpush_full full, execBmpush_full (hlen ▸ full)]
      exact h.finish .errBmfull false
    · rw [execBmpush_above_cap above, execBmpush_above_cap (hlen ▸ above)]
      exact rfl
  | isamp nbits =>
    change SameOutcome (isampWith A nbits s) (isampWith A nbits t)
    unfold isampWith
    rw [h.iSample_eq, ← h.len_eq]
    split_ifs
    · exact h.finish .errParam false
    · exact h.finish .errPrecond false
    · cases iSample A s.bm s.bmLen.toNat nbits with
      | value v => exact (h.emitAll 0x3#4 [v]).finish .ok false
      | badIndex => exact h.finish .errBmindex false
      | unwritten => exact rfl
  | iseed =>
    change SameOutcome (iseedWith A s) (iseedWith A t)
    unfold iseedWith
    rw [h.iSample_eq, ← h.len_eq]
    split_ifs
    · exact h.finish .errPrecond false
    · cases iSample A s.bm s.bmLen.toNat Config.sw with
      | value v => exact (h.loadSeed _).finish .ok false
      | badIndex => exact h.finish .errBmindex false
      | unwritten => exact rfl
  | seed v => exact (h.loadSeed v).finish .ok false
  | next n e =>
    change SameOutcome (execNext n e s) (execNext n e t)
    unfold execNext
    rw [← h.seeded_eq]
    split_ifs with hn unseeded
    · exact h.finish .errParam false
    · exact h.finish .errUnseeded false
    · rw [← h.reg_eq (by simpa using unseeded)]
      exact ((h.advance _ n).emitAll 0x6#4 _).finish .ok false
  | rstream a b count =>
    change SameOutcome (execRstream a b count s) (execRstream a b count t)
    unfold execRstream
    simp only [← h.seeded_eq]
    split_ifs with hb hn unseeded
    · exact h.finish .errParam false
    · exact h.finish .errParam false
    · exact h.finish .errUnseeded false
    · rw [← h.reg_eq (by simpa using unseeded)]
      exact ((h.advance _ _).emitAll 0x7#4 _).finish .ok false
  | rhash a b d =>
    change SameOutcome (execRhash a b d s) (execRhash a b d t)
    unfold execRhash
    split_ifs
    · exact h.finish .errParam true
    · exact (h.emitAll 0x8#4 _).finish .ok true

/-- No step does, when the meanings it runs do not: both states present the same input. -/
theorem SameToAnyRun.stepBy_sameOutcome {meaning : Instr → State → Host.Outcome State Fault Refusal}
    (hm : ∀ i {s t}, SameToAnyRun s t → SameOutcome (meaning i s) (meaning i t)) (h : SameToAnyRun s t) :
    SameOutcome (stepBy meaning s) (stepBy meaning t) := by
  unfold stepBy takeInput
  rw [← h.port_eq]
  cases s.port with
  | nil => exact h
  | cons x rest =>
    cases x with
    | reset => exact .refl _
    | command d =>
      simp only
      cases decode d with
      | ok i => exact hm i (h.setPort rest)
      | error e => exact (h.setPort rest).finish .errIllegal false

end EveryArithmetic

/-- The orbit is the pair of any two sequences that obey the recurrence (R84, R88). -/
theorem henonOrbit_eq {A : HenonArith} {N nbits : ℕ} {x y : ℕ → A.R} (hx0 : x 0 = A.ofNat (nbits - 1))
    (hy0 : y 0 = A.ofNat (nbits + 1))
    (hx : ∀ i, x (i + 1) = A.rmod (A.radd (A.rsub A.c1 (A.rmul A.cA (A.rmul (x i) (x i)))) (y i)) N)
    (hy : ∀ i, y (i + 1) = A.rmul A.cB (x i)) (i : ℕ) : henonOrbit A N nbits i = (x i, y i) := by
  induction i with
  | zero => rw [hx0, hy0, henonOrbit, henonInit]
  | succ i ih => rw [hx, hy, henonOrbit, ih, henonStep]

section Reduced

/-! The index of a coordinate before its reduction (R87, R89). -/

variable {mode : HenonMod} {v : ℚ} {x : B64} {N M : ℕ}

/-- `r0` has the integer part of `v` reduced, and the fraction of `v`. -/
theorem truncRem_eq_floor_add_fract (h : 0 ≤ v) (N : ℕ) : truncRem v N = (⌊v⌋ % N : ℤ) + Int.fract v := by
  have whole : Int.fract (truncRem v N) = Int.fract v := by
    rw [truncRem_of_nonneg h, ← Int.cast_natCast, ← Int.cast_mul, Int.fract_sub_intCast]
  rw [← floor_truncRem h, ← whole, Int.floor_add_fract]

theorem floor_abs_truncRem (hN : 0 < N) (v : ℚ) : ⌊|truncRem v N|⌋ = ⌊|v|⌋ % N := by
  wlog h : 0 ≤ v generalizing v
  · have := this (-v) (by linarith)
    rwa [truncRem_neg, abs_neg, abs_neg] at this
  obtain ⟨nonneg, -, -⟩ := truncRem_mem_of_nonneg hN h
  rw [abs_of_nonneg nonneg, abs_of_nonneg h, floor_truncRem h]

/-- Under both conventions a coordinate that is not negative is reduced to `r0`. -/
theorem b64Mod_of_nonneg (hN : 0 < N) (h : 0 ≤ b64Val x) : b64Mod mode x N = b64TruncMod x N := by
  obtain ⟨nonneg, -, -⟩ := truncRem_mem_of_nonneg hN h
  cases mode with
  | trunc => exact b64Mod_trunc x N
  | floored => exact b64Mod_floored_of_nonneg nonneg

theorem ratMod_of_nonneg (hN : 0 < N) (h : 0 ≤ v) : ratMod mode v N = truncRem v N := by
  obtain ⟨nonneg, -, -⟩ := truncRem_mem_of_nonneg hN h
  cases mode with
  | trunc => exact ratMod_trunc v N
  | floored => rw [ratMod_floored, if_pos nonneg]

theorem b64FloorAbs_truncMod {n : ℕ} (hN : 0 < N) (hx : ⌊|b64Val x|⌋ = n) : b64FloorAbs (b64TruncMod x N) = n % N := by
  rw [← Int.natCast_inj, b64FloorAbs_eq, b64Val_truncMod, floor_abs_truncRem hN, hx, Int.natCast_mod]

theorem ratFloorAbs_truncRem {n : ℕ} (hN : 0 < N) (hv : ⌊|v|⌋ = n) : ratFloorAbs (truncRem v N) = n % N := by
  rw [← Int.natCast_inj, ratFloorAbs_eq, floor_abs_truncRem hN, hv, Int.natCast_mod]

/-- A coordinate that is already reduced is kept, bit for bit. -/
theorem b64TruncMod_eq_self (hexp : x.exp ≤ 0) (hnum : 0 ≤ x.num) (lt : b64Val x < N) : b64TruncMod x N = x := by
  have up : x.exp.toNat = 0 := by omega
  have down : -((-x.exp).toNat : ℤ) = x.exp := by omega
  rw [b64Val_eq_div, div_lt_iff₀ (by positivity), up, pow_zero, mul_one] at lt
  rw [b64TruncMod]
  simp only [up, down, pow_zero, Nat.cast_one, mul_one]
  rw [Int.tmod_eq_of_lt hnum (mod_cast lt)]

/-- The remainder of a negative coordinate that is not whole is negative, and `FLOORED` takes it to between two integers
(R87). -/
theorem truncRem_of_neg {n : ℕ} (hN : 0 < N) (h : v < 0) (hn : ⌊-v⌋ = n) (hf : 0 < Int.fract (-v)) :
    truncRem v N < 0 ∧ truncRem v N + N = (N - 1 - n % N : ℕ) + (1 - Int.fract (-v)) := by
  have lt := Nat.mod_lt n hN
  have rem := truncRem_eq_floor_add_fract (v := -v) (by linarith) N
  rw [truncRem_neg, hn, ← Int.natCast_mod, Int.cast_natCast] at rem
  have nonneg : (0 : ℚ) ≤ (n % N : ℕ) := Nat.cast_nonneg _
  rw [Nat.cast_sub (by omega), Nat.cast_sub (by omega), Nat.cast_one]
  constructor <;> linarith

theorem ratFloorAbs_eq_of_mem {n : ℕ} (h : (n : ℚ) ≤ v) (lt : v < n + 1) : ratFloorAbs v = n := by
  rw [← Int.natCast_inj, ratFloorAbs_eq, abs_of_nonneg (n.cast_nonneg.trans h), Int.floor_eq_iff]
  exact ⟨h, lt⟩

theorem b64FloorAbs_eq_of_mem {n : ℕ} (h : (n : ℚ) ≤ b64Val x) (lt : b64Val x < n + 1) : b64FloorAbs x = n := by
  rw [← Int.natCast_inj, b64FloorAbs_eq, abs_of_nonneg (n.cast_nonneg.trans h), Int.floor_eq_iff]
  exact ⟨h, lt⟩

theorem ratFloorAbs_mod_floored {n : ℕ} (hN : 0 < N) (h : v < 0) (hn : ⌊-v⌋ = n) (hf : 0 < Int.fract (-v)) :
    ratFloorAbs (ratMod .floored v N) = N - 1 - n % N := by
  obtain ⟨neg, sum⟩ := truncRem_of_neg hN h hn hf
  have lt_one := Int.fract_lt_one (-v)
  rw [ratMod_floored, if_neg neg.not_ge, sum]
  exact ratFloorAbs_eq_of_mem (by linarith) (by linarith)

theorem isBinary64_div_eight {n : ℤ} (hn : |n| ≤ 2 ^ 53) : IsBinary64 (n / 8) := by
  have := isBinary64_of_abs_le (e := -3) hn (by norm_num)
  rwa [show (2 : ℚ) ^ (-3 : ℤ) = 1 / 8 by norm_num, mul_one_div] at this

/-- In binary64 the same holds where eighths around the fraction are binary64 values, so that the sum is not rounded across. -/
theorem b64FloorAbs_mod_floored {n : ℕ} (hN : 0 < N) (hmax : N ≤ 2 ^ 20) (h : b64Val x < 0) (hn : ⌊-b64Val x⌋ = n)
    (hf : 1 / 8 ≤ Int.fract (-b64Val x)) : b64FloorAbs (b64Mod .floored x N) = N - 1 - n % N := by
  obtain ⟨neg, sum⟩ := truncRem_of_neg hN h hn (by linarith)
  have rounding := b64Mod_floored_isRounding (hmax.trans (by norm_num)) neg
  rw [sum] at rounding
  have bound : N - 1 - n % N < 2 ^ 20 := by omega
  generalize N - 1 - n % N = K at *
  have lt_one := Int.fract_lt_one (-b64Val x)
  obtain ⟨low, high⟩ := rounding.mem_Icc (isBinary64_natCast (n := K) (by omega))
    (isBinary64_div_eight (n := 8 * K + 7) (by rw [abs_of_nonneg (by omega)]; omega)) (by linarith) (by push_cast; linarith)
  push_cast at high
  exact b64FloorAbs_eq_of_mem low (by linarith)

end Reduced

section SmallWalks

variable {mode : HenonMod} {N nbits i : ℕ}

/-- The new first coordinate before its reduction (R88). -/
def nextFirst (A : HenonArith) (p : A.R × A.R) : A.R :=
  A.radd (A.rsub A.c1 (A.rmul A.cA (A.rmul p.1 p.1))) p.2

theorem walkIndex_eq (A : HenonArith) (N nbits i : ℕ) :
    walkIndex A N nbits i = A.rfloorabs (A.rmod (nextFirst A (henonOrbit A N nbits i)) N) := rfl

theorem henonOrbit_succ (A : HenonArith) (N nbits i : ℕ) :
    henonOrbit A N nbits (i + 1) =
      (A.rmod (nextFirst A (henonOrbit A N nbits i)) N, A.rmul A.cB (henonOrbit A N nbits i).1) := rfl

/-! The pairs and coordinates the first iterations come to, by evaluation. -/

theorem binary64_nextFirst_one (mode : HenonMod) :
    nextFirst (binary64 mode) (henonInit (binary64 mode) 1) = (⟨6755399441055744, -51⟩ : B64) := by
  cases mode <;> decide +kernel

theorem binary64_nextFirst_two (mode : HenonMod) :
    nextFirst (binary64 mode) (henonInit (binary64 mode) 2) = (⟨5854679515581645, -51⟩ : B64) := by
  cases mode <;> decide +kernel

theorem exact_nextFirst_one (mode : HenonMod) : nextFirst (exactArith mode) (henonInit (exactArith mode) 1) = (3 : ℚ) := by
  cases mode <;> decide +kernel

theorem exact_nextFirst_two (mode : HenonMod) :
    nextFirst (exactArith mode) (henonInit (exactArith mode) 2) = (13 / 5 : ℚ) := by
  cases mode <;> decide +kernel

/-- The pair after the first iteration of `ISAMP 2`, where the matrix has three cells or more: nothing is reduced. -/
theorem binary64_orbit_two (hN : 3 ≤ N) :
    henonOrbit (binary64 mode) N 2 1 = ((⟨5854679515581645, -51⟩, ⟨5404319552844595, -54⟩) : B64 × B64) := by
  have hN' : (3 : ℚ) ≤ N := mod_cast hN
  have first : b64Mod mode ⟨5854679515581645, -51⟩ N = ⟨5854679515581645, -51⟩ := by
    rw [b64Mod_of_nonneg (by omega) (by norm_num [b64Val])]
    exact b64TruncMod_eq_self (by norm_num) (by norm_num) (lt_of_lt_of_le (by norm_num [b64Val]) hN')
  have second : (binary64 mode).rmul (binary64 mode).cB ((binary64 mode).ofNat 1) = (⟨5404319552844595, -54⟩ : B64) := by
    cases mode <;> decide +kernel
  rw [henonOrbit_succ, henonOrbit, binary64_nextFirst_two]
  exact Prod.ext first second

theorem exact_orbit_two (hN : 3 ≤ N) : henonOrbit (exactArith mode) N 2 1 = ((13 / 5, 3 / 10) : ℚ × ℚ) := by
  have hN' : (3 : ℚ) ≤ N := mod_cast hN
  have first : ratMod mode (13 / 5) N = 13 / 5 := by
    rw [ratMod_of_nonneg (by omega) (by norm_num)]
    exact truncRem_eq_self_of_lt (by norm_num) (lt_of_lt_of_le (by norm_num) hN')
  have second : (exactArith mode).rmul (exactArith mode).cB ((exactArith mode).ofNat 1) = (3 / 10 : ℚ) := by
    cases mode <;> decide +kernel
  rw [henonOrbit_succ, henonOrbit, exact_nextFirst_two]
  exact Prod.ext first second

/-- What the recurrence gives from there, -8.164 rounded (95 V-I3). -/
theorem binary64_nextFirst_orbit_two (mode : HenonMod) :
    nextFirst (binary64 mode) ((⟨5854679515581645, -51⟩, ⟨5404319552844595, -54⟩) : B64 × B64) =
      (⟨-4595923419731591, -49⟩ : B64) := by
  cases mode <;> decide +kernel

theorem exact_nextFirst_orbit_two (mode : HenonMod) :
    nextFirst (exactArith mode) ((13 / 5, 3 / 10) : ℚ × ℚ) = (-2041 / 250 : ℚ) := by
  cases mode <;> decide +kernel

/-- The index of a coordinate that is not negative before its reduction. -/
theorem binary64_walkIndex_of_nonneg {x : B64} {n : ℕ} (hN : 0 < N)
    (hx : nextFirst (binary64 mode) (henonOrbit (binary64 mode) N nbits i) = x) (h : 0 ≤ b64Val x) (hn : ⌊|b64Val x|⌋ = n) :
    walkIndex (binary64 mode) N nbits i = n % N := by
  rw [walkIndex_eq, hx]
  change b64FloorAbs (b64Mod mode x N) = _
  rw [b64Mod_of_nonneg hN h, b64FloorAbs_truncMod hN hn]

theorem exact_walkIndex_of_nonneg {v : ℚ} {n : ℕ} (hN : 0 < N)
    (hv : nextFirst (exactArith mode) (henonOrbit (exactArith mode) N nbits i) = v) (h : 0 ≤ v) (hn : ⌊|v|⌋ = n) :
    walkIndex (exactArith mode) N nbits i = n % N := by
  rw [walkIndex_eq, hv]
  change ratFloorAbs (ratMod mode v N) = _
  rw [ratMod_of_nonneg hN h, ratFloorAbs_truncRem hN hn]

theorem binary64_walkIndex_one (mode : HenonMod) (hN : 0 < N) : walkIndex (binary64 mode) N 1 0 = 3 % N :=
  binary64_walkIndex_of_nonneg hN (binary64_nextFirst_one mode) (by norm_num [b64Val]) (by norm_num [b64Val])

theorem binary64_walkIndex_two (mode : HenonMod) (hN : 0 < N) : walkIndex (binary64 mode) N 2 0 = 2 % N :=
  binary64_walkIndex_of_nonneg hN (binary64_nextFirst_two mode) (by norm_num [b64Val]) (by norm_num [b64Val])

theorem exact_walkIndex_one (mode : HenonMod) (hN : 0 < N) : walkIndex (exactArith mode) N 1 0 = 3 % N :=
  exact_walkIndex_of_nonneg hN (exact_nextFirst_one mode) (by norm_num) (by norm_num)

theorem exact_walkIndex_two (mode : HenonMod) (hN : 0 < N) : walkIndex (exactArith mode) N 2 0 = 2 % N :=
  exact_walkIndex_of_nonneg hN (exact_nextFirst_two mode) (by norm_num) (by norm_num)

theorem binary64_second_index (mode : HenonMod) (hN : 3 ≤ N) :
    walkIndex (binary64 mode) N 2 1 = b64FloorAbs (b64Mod mode ⟨-4595923419731591, -49⟩ N) := by
  rw [walkIndex_eq, binary64_orbit_two hN, binary64_nextFirst_orbit_two]

theorem exact_second_index (mode : HenonMod) (hN : 3 ≤ N) :
    walkIndex (exactArith mode) N 2 1 = ratFloorAbs (ratMod mode (-2041 / 250) N) := by
  rw [walkIndex_eq, exact_orbit_two hN, exact_nextFirst_orbit_two]

end SmallWalks

/-- Every index is inside the matrix where every reduced coordinate's is. -/
theorem walkInRange_of_reduced {A : HenonArith} {N nbits : ℕ} (h : ∀ v, A.rfloorabs (A.rmod v N) < N) :
    WalkInRange A N nbits :=
  fun _ _ => h _

/-- Settles O17: a push writes the cell at `BM_LEN`; pushes one after another by `execAll_bmpush`. -/
theorem bmpushAppendsOneCell : Obligations.BmpushAppendsOneCell := by
  refine ⟨fun t b hcw => ?_, fun b s h => execBmpush_full h, fun b s h => ?_, fun bits s h0 hbits => ?_⟩
  · exact decode_of_encode_cw (i := .bmpush b) rfl hcw.symm (agreeOnPorts_of_lt (op := 0x2#4) (by decide) _ _)
  · refine ⟨_, execBmpush_below h, rfl, bmLen_push_toNat h, memory_read_write_same .., fun a ha => ?_⟩
    exact memory_read_write_other ha
  · cases bits with
    | nil => exact ⟨s, rfl, h0, fun i hi => absurd hi (Nat.not_lt_zero i)⟩
    | cons b bits =>
      rw [List.length_cons] at hbits
      obtain ⟨u, hu, first⟩ := exec_bmpush_of_lt b (s := s) (by omega)
      obtain ⟨v, hv, others⟩ :=
        execAll_bmpush (s := u) bits [] (by rw [first.frame]) (by rw [first.len, List.length_singleton]; omega)
      rw [List.append_nil] at hv
      have loaded := first.cons others
      refine ⟨v, (execAll_cons hu).trans hv, by rw [loaded.len, h0, Nat.zero_add], fun i hi => ?_⟩
      simpa [h0] using loaded.cells i hi

/-- Settles O20: the walk ends with the integer it assembles, and `ISAMP` emits it. -/
theorem isampEmitsTheSampledInteger : Obligations.IsampEmitsTheSampledInteger := by
  refine ⟨fun A nbits v s h1 h2 _ hr hv => ?_, fun nbits v s h1 h2 _ hr hv => ?_⟩
  · exact isampWith_value h1 h2 (iSample_of_walkInRange hr hv)
  · exact isampWith_value h1 h2 (iSample_of_walkInRange hr hv)

/-- Settles O21: over written cells the walk can only end at an index outside the matrix. -/
theorem indexOutOfTheMatrixIsRejected : Obligations.IndexOutOfTheMatrixIsRejected := by
  intro A nbits j s hmax hj hlen written _ hout
  exact isampWith_badIndex (by omega) hmax hlen (iSample_badIndex written hj hout)

/-- Settles O22: the coordinate before each reduction is a constant, whose integer part the reduction takes modulo `N`. -/
theorem smallestSamplesIndices : Obligations.SmallestSamplesIndices := by
  refine ⟨fun mode N hN => ⟨binary64_walkIndex_one mode hN, exact_walkIndex_one mode hN, binary64_walkIndex_two mode hN,
    exact_walkIndex_two mode hN⟩, fun N hN => ⟨?_, ?_, ?_, fun hmax => ?_⟩, fun s b hlen hb => ?_⟩
  · rw [exact_second_index .trunc hN, ratMod_trunc]
    exact ratFloorAbs_truncRem (by omega) (by norm_num [abs_of_neg])
  · rw [exact_second_index .floored hN]
    exact ratFloorAbs_mod_floored (by omega) (by norm_num) (by norm_num) (by norm_num [Int.fract])
  · rw [binary64_second_index .trunc hN, b64Mod_trunc]
    exact b64FloorAbs_truncMod (by omega) (by norm_num [b64Val, abs_of_neg])
  · rw [binary64_second_index .floored hN]
    exact b64FloorAbs_mod_floored (by omega) hmax (by norm_num [b64Val]) (by norm_num [b64Val])
      (by norm_num [b64Val, Int.fract])
  · have index : walkIndex henonArith s.bmLen.toNat 1 0 = 3 % s.bmLen.toNat := binary64_walkIndex_one _ hlen
    refine isampWith_value le_rfl (by norm_num) (iSample_of_walkInRange (fun i hi => ?_) ⟨?_, fun i hi => ?_⟩)
    · obtain rfl := Nat.lt_one_iff.1 hi
      rw [index]
      exact Nat.mod_lt _ hlen
    · have := b.toNat_le
      omega
    · obtain rfl := Nat.lt_one_iff.1 hi
      rw [index, hb]
      cases b <;> rfl

/-- Settles O23: below 1 there is only the index 0. -/
theorem oneCellMatrixRepeatsItsBit : Obligations.OneCellMatrixRepeatsItsBit := by
  intro A nbits s b hA h1 h2 hlen hb
  have inRange : WalkInRange A 1 nbits := by
    apply walkInRange_of_reduced
    rcases hA with rfl | rfl
    · exact fun v => b64FloorAbs_mod_trunc_lt v one_pos
    · exact fun v => ratFloorAbs_mod_lt .trunc v one_pos
  have cells : ∀ i, i < 1 → Memory.read s.bm i = some b := fun i hi => Nat.lt_one_iff.1 hi ▸ hb
  rw [← hlen] at inRange cells
  exact isampWith_value h1 h2 (iSample_of_walkInRange inRange (isSampleValue_const inRange cells))

/-- Settles O24: the commands between leave the matrix, and `ISAMP` reads nothing else. -/
theorem samplingIsDeterministic : Obligations.SamplingIsDeterministic := by
  intro nbits between s t u hl hs hu
  obtain ⟨hbm, hlen⟩ := execAll_matrix_eq hl hu
  obtain ⟨hbm', hlen'⟩ := exec_matrix_eq (i := .isamp nbits) rfl hs
  obtain ⟨c, events, rfl, hw⟩ := isampWith_of_matrix_eq (hbm.trans hbm') (hlen.trans hlen') hs
  exact ⟨_, events, hw, by simp, rfl, rfl⟩

/-- Settles O25: each clause is one way the sample ends; an `ISAMP 128` that completes `OK` has sampled the same integer. -/
theorem iseedLoadsTheSampledSeed : Obligations.IseedLoadsTheSampledSeed := by
  refine ⟨fun t hcw => ?_, fun s h0 => iseedWith_empty h0, exec_iseed, ?_, ?_, ?_⟩
  · exact decode_of_encode_cw (i := .iseed) rfl hcw.symm (agreeOnPorts_of_lt (by decide) _ _)
  · intro A j s hj hlen written _ hout
    exact iseedWith_badIndex hlen (iSample_badIndex written hj hout)
  · intro v s _ hr hv
    exact iseedWith_value (iSample_of_walkInRange hr hv)
  · intro s t h hok
    rcases exec_next_cases h with rejected | completed
    · exact absurd hok rejected.statusCode_ne
    · cases completed with
      | isamp sampled =>
        obtain ⟨-, lt, -⟩ := iSample_value sampled
        exact ⟨_, lt, rfl, iseedWith_value sampled⟩

/-- Settles O27. -/
theorem reducedIndexIsBounded : Obligations.ReducedIndexIsBounded :=
  ⟨fun v _ hN => b64FloorAbs_mod_trunc_lt v hN, fun mode v _ hN => ratFloorAbs_mod_lt mode v hN,
    fun v _ hN hmax => b64FloorAbs_mod_floored_le v hN (hmax.trans (by norm_num))⟩

/-- Settles O53: under the invariant every command goes on and keeps it; equal matrices and registers give equal outcomes. -/
theorem everyArithmeticKeepsTheInvariant : Obligations.EveryArithmeticKeepsTheInvariant := by
  refine ⟨fun A s hs => ?_, fun A s t h => h.stepBy_sameOutcome fun i _ _ h => h.execWith_sameOutcome A i⟩
  obtain ⟨t, ht⟩ := stepBy_goes_on (fun i _ hs => execWith_goes_on A i hs) hs
  exact ⟨t, ht, stepBy_keeps_inv execWith_keeps_inv hs ht⟩

/-- Settles O54, by induction on the iteration. -/
theorem walkFollowsTheHenonRecurrence : Obligations.WalkFollowsTheHenonRecurrence := by
  intro A N nbits x y hx0 hy0 hx hy i
  rw [walkIndex, henonOrbit_eq hx0 hy0 hx hy, sampleIndex]

/-- Settles O55: rounding on the grid of the exponent `b64Round` takes is rounding to binary64; the two constants are rounded on
the grids of `2^-52` and `2^-54`. -/
theorem binary64RoundsToNearestEven : Obligations.Binary64RoundsToNearestEven := by
  refine ⟨b64Round_isRounding, fun x y => ⟨b64Mul_isRounding x y, b64Add_isRounding x y, b64Sub_isRounding x y⟩,
    fun k hk => b64Val_ofNat hk, b64FloorAbs_eq, fun mode => ⟨?_, ?_, ?_⟩⟩
  · simpa using b64Val_ofNat (k := 1) (by norm_num)
  · rw [binary64_cA, b64Val_eq, show (7 / 5 : ℚ) = 7 / 5 * 2 ^ 52 * 2 ^ (-52 : ℤ) by norm_num]
    exact RoundsOnGrid.isRounding (by constructor <;> norm_num [abs_of_pos, abs_of_neg])
  · rw [binary64_cB, b64Val_eq, show (3 / 10 : ℚ) = 3 / 10 * 2 ^ 54 * 2 ^ (-54 : ℤ) by norm_num]
    exact RoundsOnGrid.isRounding (by constructor <;> norm_num [abs_of_pos, abs_of_neg])

/-- Settles O56: both integer computations of `r0` are the stated remainder, by `truncQuot_div`. -/
theorem reductionFollowsTheConvention : Obligations.ReductionFollowsTheConvention := by
  refine ⟨fun v N hN => ?_, fun v N hN => ⟨?_, fun h => ?_, fun hmax h => b64Mod_floored_isRounding hmax h,
    fun hmax hv => isBinary64_truncRem hv hN hmax⟩, fun v N _ => ⟨ratMod_trunc v N, ratMod_floored v N⟩⟩
  · obtain ⟨lt, sign, -⟩ := truncRem_spec hN v
    exact ⟨lt, sign⟩
  · rw [b64Mod_trunc, b64Val_truncMod]
  · rw [b64Mod_floored_of_nonneg h, b64Val_truncMod]

/-- Settles O16: the one legal word is the row's pattern, and an empty matrix fails the sampler's check. -/
theorem bmclrEmptiesTheMatrix : Obligations.BmclrEmptiesTheMatrix := by
  refine ⟨fun t hcw => ?_, fun t hop hne => ?_, fun s => ⟨_, exec_bmclr s, rfl, fun nbits h1 h2 => ?_, ?_⟩⟩
  · exact decode_of_encode_cw (i := .bmclr) rfl hcw.symm (agreeOnPorts_of_lt (by decide) _ _)
  · rcases decode_cases t with ⟨i, -, carried⟩ | ⟨hd, -⟩
    · have hi : opcodeRow i = opcodeRow .bmclr :=
        row_eq_of_opcField_eq _ (opcodeRow_mem i) _ (opcodeRow_mem _) (by
          rw [opcField_opcodeRow, opcField_opcodeRow, ← carried.opcField_eq, hop, opcode])
      have row := carried.row
      rw [hi] at row
      exact absurd ((and_fullMask t.cw).symm.trans row) hne
    · rw [hd, illegalReason, if_neg (by rw [hop]; decide)]
  · exact isampWith_empty h1 h2 rfl
  · exact iseedWith_empty (A := henonArith) (s := complete false (s.setBmLen 0#21)) rfl

/-- Settles O19. -/
theorem samplerValidatesInOrder : Obligations.SamplerValidatesInOrder :=
  ⟨fun _ _ h => isampWith_illegal_width h, fun _ _ h1 h2 h0 => isampWith_empty h1 h2 h0, fun _ h0 => iseedWith_empty h0⟩

/-- Settles O52, command by command. -/
theorem machineIsAnInstanceOfItsArithmetic : Obligations.MachineIsAnInstanceOfItsArithmetic := by
  have same : exec = execWith henonArith := funext fun i => funext fun s => exec_eq_execWith i s
  have same_step : step = stepWith henonArith := by
    funext s
    rw [step, stepWith, same]
  refine ⟨fun A i s => ?_, fun A s t rest i hp hd => stepBy_of_command hp hd, exec_eq_execWith, congrFun same_step, ?_⟩
  · cases i <;> rfl
  · rw [core, coreWith, same_step]

end Sys2Proof.Machine

/-! PROOFS of the family 42_cursor_seed_source.md: how many bits a run has collected bounds its value. -/

namespace Sys2Proof.Machine

section CursorSeedSource

theorem appendBit_lt {out n : Nat} (b : Bool) (h : out < 2 ^ n) : appendBit out b < 2 ^ (n + 1) := by
  have hb := b.toNat_lt
  rw [appendBit_eq, pow_succ]
  omega

/-- Collecting `todo` parity bits widens the byte by at most that many bits. -/
theorem cursorBits_lt {todo n byte v : Nat} {polls rest : List CursorSample} (hbyte : byte < 2 ^ n)
    (h : cursorBits todo polls byte = some (v, rest)) : v < 2 ^ (n + todo) := by
  induction todo, polls, byte using cursorBits.induct generalizing n with
  | case1 polls byte =>
    obtain ⟨rfl, -⟩ : byte = v ∧ polls = rest := by simpa [cursorBits] using h
    exact hbyte
  | case2 => simp [cursorBits] at h
  | case3 todo p polls byte blocked => simp [cursorBits, blocked] at h
  | case4 todo p polls byte later moved ih =>
    simp only [cursorBits, moved] at h
    rw [Nat.add_succ, ← Nat.succ_add]
    exact ih (appendBit_lt _ hbyte) h

/-- Collecting `todo` bytes widens the accumulator by at most eight bits for each. -/
theorem cursorBytes_lt {todo n acc s : Nat} {polls : List CursorSample} (hacc : acc < 2 ^ n)
    (h : cursorBytes todo polls acc = some s) : s < 2 ^ (n + 8 * todo) := by
  induction todo, polls, acc using cursorBytes.induct generalizing n with
  | case1 polls acc =>
    obtain rfl : acc = s := by simpa [cursorBytes] using h
    exact hacc
  | case2 todo polls acc blocked => simp [cursorBytes, blocked] at h
  | case3 todo polls acc byte rest collected ih =>
    simp only [cursorBytes, collected] at h
    have hbyte : byte < 2 ^ 8 := cursorBits_lt (n := 0) (by decide) collected
    have hshift : acc <<< 8 < 2 ^ (n + 8) := by
      rw [Nat.shiftLeft_eq, pow_add]
      omega
    have hnext : acc <<< 8 ||| byte < 2 ^ (n + 8) :=
      Nat.or_lt_two_pow hshift (hbyte.trans_le (Nat.pow_le_pow_right (by decide) (by omega)))
    rw [Nat.mul_succ, Nat.add_comm (8 * todo), ← Nat.add_assoc]
    exact ih hnext h

theorem cursorSeed_rejected_iff {nbytes : Nat} {polls : List CursorSample} :
    cursorSeed nbytes polls = .rejected ↔ nbytes < 16 ∨ 32 < nbytes := by
  unfold cursorSeed
  split
  · next illegal => simpa using illegal
  · next legal => cases cursorBytes nbytes polls 0 <;> simpa using legal

/-- A completed run has a legal `nbytes`, and its seed is the collected bytes with the top bit forced (R104). -/
theorem cursorSeed_eq_seed {nbytes v : Nat} {polls : List CursorSample} (h : cursorSeed nbytes polls = .seed v) :
    (16 ≤ nbytes ∧ nbytes ≤ 32) ∧
      ∃ s, cursorBytes nbytes polls 0 = some s ∧ v = s ||| (1 <<< (8 * nbytes - 1)) := by
  unfold cursorSeed at h
  split at h
  · cases h
  · next legal =>
    have legal : ¬(nbytes < 16 ∨ 32 < nbytes) := legal
    cases collected : cursorBytes nbytes polls 0 with
    | none => simp [collected] at h
    | some s =>
      rw [collected] at h
      cases h
      exact ⟨by omega, s, rfl, rfl⟩

/-- Forcing bit `k` sets it and keeps a value of `k + 1` bits one of `k + 1` bits. -/
theorem or_one_shiftLeft_bounds {s k : Nat} (hs : s < 2 ^ (k + 1)) :
    2 ^ k ≤ s ||| (1 <<< k) ∧ (s ||| (1 <<< k)) < 2 ^ (k + 1) ∧ (s ||| (1 <<< k)).testBit k = true := by
  rw [Nat.one_shiftLeft]
  exact ⟨Nat.right_le_or, Nat.or_lt_two_pow hs (Nat.pow_lt_pow_succ (by decide)), by simp⟩

end CursorSeedSource

/-- Settles O51: the collected value has at most `8 * nbytes` bits (`cursorBytes_lt`), and the forced bit is the top one of
these. -/
theorem cursorSeedHasItsTopBitSet : Obligations.CursorSeedHasItsTopBitSet := by
  refine fun nbytes polls => ⟨cursorSeed_rejected_iff.symm, fun v hv => ?_⟩
  obtain ⟨⟨sixteen_le, -⟩, s, collected, rfl⟩ := cursorSeed_eq_seed hv
  have top : 8 * nbytes - 1 + 1 = 8 * nbytes := by omega
  have hs : s < 2 ^ (8 * nbytes) := by
    simpa using cursorBytes_lt (n := 0) (by decide) collected
  rw [← top] at hs
  have bounds := or_one_shiftLeft_bounds hs
  rwa [top] at bounds

end Sys2Proof.Machine

/-! PROOFS of the family 43_bitstream_generator.md. First the layers: one step of the register by bits, the register after many
steps, the integer a draw returns, and what `NEXT` and a run without a seeding leave; then the obligations. -/

namespace Sys2Proof.Machine

section Step

/-! One step (R110), its inverse (R121) and its fixed point (R120). -/

variable (S : Reg128)

theorem lfsrNext_getLsbD_top : (lfsrNext S).getLsbD 127 = feedback S := by
  simp [lfsrNext]

/-- Every bit below the top one is shifted down. -/
theorem lfsrNext_getLsbD {i : Nat} (hi : i ≤ 126) : (lfsrNext S).getLsbD i = S.getLsbD (i + 1) := by
  have hi : i < 127 := by omega
  simp [lfsrNext, hi, Nat.add_comm]

theorem lfsrOut_eq : lfsrOut S = S.getLsbD 1 := lfsrNext_getLsbD S (by decide)

/-- The bit the shift drops is recovered from the feedback and the three other taps (R121). -/
theorem getLsbD_zero_eq_of_lfsrNext :
    S.getLsbD 0 = ((lfsrNext S).getLsbD 127 ^^ (lfsrNext S).getLsbD 0 ^^ (lfsrNext S).getLsbD 1 ^^
      (lfsrNext S).getLsbD 6) := by
  have cancel : ∀ a b c d : Bool, a = ((a ^^ b ^^ c ^^ d) ^^ b ^^ c ^^ d) := by decide
  rw [lfsrNext_getLsbD_top, lfsrNext_getLsbD S (by decide), lfsrNext_getLsbD S (by decide),
    lfsrNext_getLsbD S (by decide)]
  exact cancel _ _ _ _

/-- Every bit of the old register is a function of the new one. -/
theorem lfsrNext_injective : Function.Injective lfsrNext := by
  intro S T h
  refine BitVec.eq_of_getLsbD_eq fun i hi => ?_
  cases i with
  | zero => rw [getLsbD_zero_eq_of_lfsrNext S, getLsbD_zero_eq_of_lfsrNext T, h]
  | succ i => rw [← lfsrNext_getLsbD S (by omega), ← lfsrNext_getLsbD T (by omega), h]

/-- There are finitely many registers, so a step that loses none reaches each. -/
theorem lfsrNext_bijective : Function.Bijective lfsrNext := by
  have : Finite Reg128 := Finite.of_injective BitVec.toFin fun _ _ => BitVec.toFin_inj.1
  exact Finite.injective_iff_bijective.1 lfsrNext_injective

theorem lfsrNext_zero : lfsrNext 0#128 = 0#128 := by decide

theorem lfsrOut_zero : lfsrOut 0#128 = false := by decide

end Step

section Steps

/-! The register after many steps. -/

variable {S : Reg128} {sq : Nat → Bool}

/-- The last step first; `regAfter_succ` takes the first one. -/
theorem regAfter_succ_last (n : Nat) (S : Reg128) : regAfter (n + 1) S = lfsrNext (regAfter n S) :=
  Function.iterate_succ_apply' lfsrNext n S

@[simp] theorem regAfter_of_zero (n : Nat) : regAfter n 0#128 = 0#128 := Function.iterate_fixed lfsrNext_zero n

theorem regAfter_ne_zero (n : Nat) (h : S ≠ 0#128) : regAfter n S ≠ 0#128 := fun h0 =>
  h (lfsrNext_injective.iterate n (h0.trans (regAfter_of_zero n).symm))

/-- The register is a window of 128 bits that each step moves on by one place of the sequence (R122). -/
theorem IsStream.regAfter_getLsbD (hsq : IsStream S sq) (k : Nat) {i : Nat} (hi : i < 128) :
    (regAfter k S).getLsbD i = sq (k + i) := by
  obtain ⟨seed, recurrence⟩ := hsq
  induction k generalizing i with
  | zero => rw [regAfter_zero, Nat.zero_add, seed i hi]
  | succ k ih =>
    rw [regAfter_succ_last]
    rcases Nat.lt_or_ge i 127 with below | top
    · rw [lfsrNext_getLsbD _ (by omega), ih (by omega), Nat.add_right_comm k 1 i, Nat.add_assoc]
    · obtain rfl : i = 127 := by omega
      rw [lfsrNext_getLsbD_top, feedback, ih (by decide), ih (by decide), ih (by decide), ih (by decide),
        Nat.add_assoc k 1 127, recurrence k, Nat.add_zero]

theorem IsStream.lfsrOut_regAfter (hsq : IsStream S sq) (k : Nat) : lfsrOut (regAfter k S) = sq (k + 1) := by
  rw [lfsrOut_eq, hsq.regAfter_getLsbD k (by decide)]

end Steps

section Draws

/-! The integer a draw returns (R113, R114). -/

variable (n : Nat) (e : Bool) (S : Reg128)

/-- Drawing on after `m` bits starts from the register they leave and appends below them. -/
theorem drawBits_drawBits (m out : Nat) :
    drawBits (m + n) S out = drawBits n (drawBits m S out).1 (drawBits m S out).2 := by
  induction m generalizing S out with
  | zero => rw [Nat.zero_add, drawBits_zero]
  | succ m ih => rw [Nat.succ_add, drawBits_succ, drawBits_succ, ih]

/-- Two draws are one of the sum of their widths, the first one's bits on top (R118). -/
theorem drawBits_add (m : Nat) :
    (drawBits (m + n) S 0).2 = (drawBits m S 0).2 <<< n ||| (drawBits n (regAfter m S) 0).2 := by
  rw [drawBits_drawBits, drawBits_reg, drawBits_value, Nat.two_pow_add_eq_or_of_lt (drawBits_lt _ _),
    Nat.shiftLeft_eq, Nat.mul_comm]

@[simp] theorem drawBits_of_zero : (drawBits n 0#128 0).2 = 0 := by
  induction n with
  | zero => rfl
  | succ n ih => rw [drawBits_succ, lfsrNext_zero, lfsrOut_zero, appendBit_eq, Bool.toNat_false, ih]

theorem forceTop_testBit (out j : Nat) : (forceTop n e out).testBit j = (out.testBit j || (e && j == n - 1)) := by
  cases e with
  | false => simp [forceTop]
  | true => simp [forceTop, Nat.one_shiftLeft, Nat.testBit_two_pow, Bool.beq_eq_decide_eq, eq_comm]

/-- A draw's integer is the plain one, but for the forced top bit. -/
theorem nextBits_value : (nextBits n e S).2 = forceTop n e (drawBits n S 0).2 := rfl

theorem nextBits_of_zero : (nextBits n e 0#128).2 = if e then 2 ^ (n - 1) else 0 := by
  rw [nextBits_value, drawBits_of_zero, forceTop, Nat.zero_or, Nat.one_shiftLeft]

variable {n}

/-- With the flag set the integer has its top bit, and no bit above it. -/
theorem nextBits_enforced_bounds (hn : 1 ≤ n) :
    2 ^ (n - 1) ≤ (nextBits n true S).2 ∧ (nextBits n true S).2 < 2 ^ n ∧ (nextBits n true S).2.testBit (n - 1) = true := by
  have width : n - 1 + 1 = n := by omega
  have bounds := or_one_shiftLeft_bounds (k := n - 1) (width.symm ▸ drawBits_lt n S)
  rwa [width] at bounds

theorem nextBits_lt (hn : 1 ≤ n) : (nextBits n e S).2 < 2 ^ n := by
  cases e with
  | false => exact drawBits_lt n S
  | true => exact (nextBits_enforced_bounds S hn).2.1

theorem nextBits_testBit {j : Nat} (hj : j < n) :
    (nextBits n e S).2.testBit (n - 1 - j) = ((e && j == 0) || lfsrOut (regAfter j S)) := by
  have top : (n - 1 - j == n - 1) = (j == 0) := by
    rw [Bool.beq_eq_decide_eq, Bool.beq_eq_decide_eq, decide_eq_decide]
    omega
  rw [nextBits_value, forceTop_testBit, drawBits_testBit n j S hj, top, Bool.or_comm]

end Draws

section Next

/-! `NEXT`, one equation for each way it ends (R115, R116). -/

variable {n : Nat} {e : Bool} {s t : State}

/-- The state a draw of `n` bits leaves when it returns `v`. `exec_next_of_seeded` says that `NEXT` leaves it. -/
def afterDraw (n v : Nat) (s : State) : State :=
  { s with
    regS := regAfter n s.regS, k := s.k + n, res := s.res ++ [⟨0x6#4, BitVec.ofNat 1024 v⟩],
    status := statusWord .ok false true }

theorem exec_next_illegal_width (h : n < 1 ∨ 1024 < n) : exec (.next n e) s = .next (raise .errParam false s) :=
  if_pos h

theorem exec_next_unseeded (h1 : 1 ≤ n) (h2 : n ≤ 1024) (hs : s.seeded = false) :
    exec (.next n e) s = .next (raise .errUnseeded false s) := by
  rcases execNext_cases n e s with ⟨-, illegal⟩ | ⟨he, -⟩ | ⟨-, -, -, seeded⟩
  · omega
  · exact he
  · exact nomatch hs.symm.trans seeded

theorem exec_next_of_seeded (h1 : 1 ≤ n) (h2 : n ≤ 1024) (hs : s.seeded = true) :
    exec (.next n e) s = .next (afterDraw n (nextBits n e s.regS).2 s) := by
  rcases execNext_cases n e s with ⟨-, illegal⟩ | ⟨-, unseeded⟩ | ⟨he, -⟩
  · omega
  · exact nomatch hs.symm.trans unseeded
  · refine he.trans ?_
    simp only [afterDraw, complete_eq, State.finish, emitAll_seeded, advance_seeded, nextBits_reg, hs]
    rfl

theorem eq_afterDraw_of_exec_next (h : exec (.next n e) s = .next t) (h1 : 1 ≤ n) (h2 : n ≤ 1024) (hs : s.seeded = true) :
    t = afterDraw n (nextBits n e s.regS).2 s :=
  Host.Outcome.next.inj (h.symm.trans (exec_next_of_seeded h1 h2 hs))

/-- Two draws step the register and count as one of the sum of their widths, whatever integers they return (R118). -/
theorem afterDraw_afterDraw (m n v w x : Nat) (s : State) :
    afterDraw (m + n) x s =
      { afterDraw n w (afterDraw m v s) with res := s.res ++ [⟨0x6#4, BitVec.ofNat 1024 x⟩] } := by
  simp only [afterDraw, Nat.add_assoc, ← regAfter_add, Nat.add_comm m n]

end Next

section NoSeeding

/-! Commands that do not seed the generator only step the register (R34, R117). -/

variable {A : HenonArith} {cmds : List Instr} {i : Instr} {s t : State}

/-- A batch of draws steps the register by the sum of their widths. -/
theorem drawValues_reg (a b : Int) (nbits count : Nat) (S : Reg128) :
    (drawValues a b nbits count S).1 = regAfter (count * nbits) S := by
  induction count generalizing S with
  | zero => rw [Nat.zero_mul]; rfl
  | succ count ih => rw [drawValues, ih, nextBits_reg, ← regAfter_add, Nat.succ_mul]

theorem Completes.exists_regAfter (h : Completes A s i t) (hi : startsInstance i = false) :
    ∃ n, t.regS = regAfter n s.regS := by
  cases h with
  | bmclr | bmpush | isamp | rhash => exact ⟨0, rfl⟩
  | iseed | seed => cases hi
  | @next n e => exact ⟨n, nextBits_reg n e s.regS⟩
  | rstream => exact ⟨_, drawValues_reg ..⟩

theorem exec_exists_regAfter (hi : startsInstance i = false) (h : exec i s = .next t) :
    ∃ n, t.regS = regAfter n s.regS := by
  rcases exec_next_cases h with ⟨c, -, rfl⟩ | completed
  · exact ⟨0, rfl⟩
  · exact completed.exists_regAfter hi

/-- What every step of the register keeps, a run without `SEED` and `ISEED` keeps. -/
theorem execAll_keeps_reg {P : Reg128 → Prop} (keeps : ∀ n {S}, P S → P (regAfter n S))
    (hi : ∀ i ∈ cmds, startsInstance i = false) (hs : P s.regS) (h : execAll cmds s = .next t) : P t.regS := by
  refine execAll_induction (P := fun u => P u.regS) (fun i mem u v hu he => ?_) hs h
  obtain ⟨n, hreg⟩ := exec_exists_regAfter (hi i mem) he
  exact hreg ▸ keeps n hu

end NoSeeding

/-- Settles O30: the word is the encoder's; the equations of `NEXT` give the rejections and the state, and `nextBits_testBit` the
bits. -/
theorem nextDrawsAnInteger : Obligations.NextDrawsAnInteger := by
  refine ⟨fun n e hn t hcw => ?_, fun n e s h => exec_next_illegal_width h, fun n e s => exec_next_unseeded,
    fun n e s h1 h2 hs => ?_⟩
  · exact decode_of_encode_cw (i := .next n e) (decide_eq_true hn) hcw.symm (by constructor <;> simp [opcode])
  · exact ⟨_, nextBits_lt e s.regS h1, fun j hj => nextBits_testBit e s.regS hj, exec_next_of_seeded h1 h2 hs⟩

/-- Settles O31: the register is the window of `IsStream.regAfter_getLsbD`, and a draw reads its outputs in order. -/
theorem drawsFollowTheSeedsBitSequence : Obligations.DrawsFollowTheSeedsBitSequence := by
  refine ⟨fun S0 sq hsq k => ⟨fun i => hsq.regAfter_getLsbD k, hsq.lfsrOut_regAfter k⟩, ?_⟩
  intro seed sq n s t hsq h1 h2 ht
  obtain rfl : complete false (s.loadSeed seed) = t := Host.Outcome.next.inj ht
  refine ⟨_, _, exec_next_of_seeded h1 h2 rfl, rfl, nextBits_lt false seed h1, fun j hj hjn => ?_,
    fun i => hsq.regAfter_getLsbD n⟩
  have bit := nextBits_testBit false seed (show j - 1 < n by omega)
  rw [hsq.lfsrOut_regAfter, show n - 1 - (j - 1) = n - j by omega, Nat.sub_add_cancel hj, Bool.false_and,
    Bool.false_or] at bit
  exact bit

/-- Settles O33: a draw's integer is the first one's bits above the second one's; on the all-zero register each draw returns its
own forced bit, 4 and 16, where one draw of 8 bits returns 128. -/
theorem drawsConcatenate : Obligations.DrawsConcatenate := by
  refine ⟨?_, ?_, ?_⟩
  · intro n1 n2 s h1 h2 hmax hs
    refine ⟨_, _, _, _, exec_next_of_seeded h1 (by omega) hs, exec_next_of_seeded h2 (by omega) hs, rfl, rfl,
      nextBits_lt false _ h1, nextBits_lt false _ h2, ?_⟩
    rw [exec_next_of_seeded (by omega) hmax hs, nextBits_plain, drawBits_add]
    exact congrArg _ (afterDraw_afterDraw ..)
  · intro n1 n2 e1 e2 e3 s t u w hmax h1 h2 hs ht hu hw
    obtain rfl := eq_afterDraw_of_exec_next ht h1 (by omega) hs
    obtain rfl := eq_afterDraw_of_exec_next hu h2 (by omega) hs
    obtain rfl := eq_afterDraw_of_exec_next hw (by omega) hmax hs
    have both := afterDraw_afterDraw n1 n2 (nextBits n1 e1 s.regS).2 (nextBits n2 e2 (regAfter n1 s.regS)).2
      (nextBits (n1 + n2) e3 s.regS).2 s
    rw [both]
    exact ⟨rfl, rfl⟩
  · intro s hs hzero
    refine ⟨_, _, _, 4, 16, 128, exec_next_of_seeded (by decide) (by decide) hs,
      exec_next_of_seeded (by decide) (by decide) hs, exec_next_of_seeded (by decide) (by decide) hs, ?_⟩
    simp [afterDraw, hzero, nextBits_of_zero]

/-- Settles O32: both draws step the register alike, and only the flag's bit tells the integers apart. -/
theorem enforceForcesOnlyTheTopBit : Obligations.EnforceForcesOnlyTheTopBit := by
  intro n s h1 h2 hs
  obtain ⟨low, high, top⟩ := nextBits_enforced_bounds s.regS h1
  refine ⟨_, _, _, _, exec_next_of_seeded h1 h2 hs, exec_next_of_seeded h1 h2 hs, rfl, rfl, top, fun j hj => ?_, low, high,
    nextBits_lt false s.regS h1, rfl⟩
  rw [nextBits_value, nextBits_value, forceTop_testBit, forceTop_testBit, beq_false_of_ne hj, Bool.and_false, Bool.and_false]

/-- Settles O29: the step by bits, and `NEXT 1, 0` as the draw of its one output. -/
theorem oneStepOfTheRegister : Obligations.OneStepOfTheRegister := by
  refine ⟨fun S => ⟨lfsrNext_getLsbD_top S, fun i => lfsrNext_getLsbD S, lfsrOut_eq S⟩, fun s hs => ?_⟩
  have value : (nextBits 1 false s.regS).2 = (s.regS.getLsbD 1).toNat := by
    rw [nextBits_plain, drawBits_succ, drawBits_zero, appendBit_eq, Nat.mul_zero, Nat.zero_add, lfsrOut_eq]
  rw [exec_next_of_seeded (by decide) (by decide) hs, value]
  rfl

/-- Settles O34: zero is a fixed point of the step, and a run without a seeding only steps. -/
theorem zeroRegisterIsAbsorbing : Obligations.ZeroRegisterIsAbsorbing := by
  refine ⟨lfsrNext_zero, lfsrOut_zero, fun n e s h1 h2 hs hzero => ?_, fun cmds s t => ?_⟩
  · rw [exec_next_of_seeded h1 h2 hs, hzero, nextBits_of_zero, afterDraw, hzero, regAfter_of_zero, ← hzero]
  · refine execAll_keeps_reg (P := (· = 0#128)) fun n S hS => ?_
    rw [hS, regAfter_of_zero]

/-- Settles O35: the step is injective with the inverse stated, and zero is its fixed point, so nothing else comes to zero. -/
theorem stepIsABijection : Obligations.StepIsABijection :=
  ⟨fun S => ⟨getLsbD_zero_eq_of_lfsrNext S, fun _ hi => (lfsrNext_getLsbD S hi).symm⟩, lfsrNext_bijective,
    fun _ _ _ => execAll_keeps_reg (P := (· ≠ 0#128)) fun n _ => regAfter_ne_zero n⟩

/-- Settles O36: a rejection leaves the generator and has another code; a completing command ends as `Completes` lists. -/
theorem generatorStateMachine : Obligations.GeneratorStateMachine := by
  intro i s t h
  rcases exec_next_cases h with rejected | completed
  · refine ⟨fun _ => ?_, fun ok => absurd ok rejected.statusCode_ne⟩
    rw [rejected.state_eq]
    exact ⟨rfl, rfl⟩
  · refine ⟨fun bad => absurd completed.statusCode_eq bad, fun _ => ?_⟩
    cases completed with
    | bmclr | bmpush | isamp | rhash | iseed | seed => exact ⟨rfl, rfl⟩
    | next _ _ seeded | rstream _ seeded => exact ⟨seeded, seeded, rfl⟩

/-- Settles O28. -/
theorem seedStartsANewInstance : Obligations.SeedStartsANewInstance :=
  ⟨fun _ hcw => decode_eq_ok_iff.2 ⟨(and_fullMask _).trans hcw, rfl⟩, fun _ _ => rfl⟩

end Sys2Proof.Machine

/-! PROOFS of the family 44_range_mapper.md. First the layers: the reduction into `[a, b]`, the draw width, the integers of a batch,
the state a run of draws leaves, and the equations of the two commands; then the obligations. -/

namespace Sys2Proof.Machine

section Reducing

/-! The integer reduction (R134, R137, R138) and the event that carries its value. -/

variable {a b : Int}

/-- The result event of `x` reduced into `[a, b]`, with the reduction on the integers; `event_mapInto` ties it to the model's. -/
def reducedEvent (op : BitVec 4) (a b : Int) (x : Nat) : Event :=
  ⟨op, BitVec.ofInt 1024 (a + (x : Int) % (b - a + 1))⟩

/-- For legal bounds the model's natural-number reduction is the integer one. -/
theorem mapInto_cast (ha : 0 ≤ a) (hab : a ≤ b) (x : Nat) : (mapInto a b x : Int) = a + (x : Int) % (b - a + 1) := by
  have modulus_cast : (modulus a b : Int) = b - a + 1 := Int.toNat_of_nonneg (by omega)
  rw [mapInto, Nat.cast_add, Int.natCast_emod, modulus_cast, Int.toNat_of_nonneg ha]

theorem event_mapInto (op : BitVec 4) (ha : 0 ≤ a) (hab : a ≤ b) (x : Nat) :
    event op (mapInto a b x) = reducedEvent op a b x := by
  rw [event, reducedEvent, ← mapInto_cast ha hab, BitVec.ofInt_natCast]

/-- The modulus of a zero-width interval is 1 (R133). -/
theorem reducedEvent_self (op : BitVec 4) (a : Int) (x : Nat) : reducedEvent op a a x = ⟨op, BitVec.ofInt 1024 a⟩ := by
  rw [reducedEvent, Int.sub_self, Int.zero_add, Int.emod_one, Int.add_zero]

theorem lt_of_fitsBound (h : fitsBound a = true) : a < (Config.boundLimit : Int) :=
  of_decide_eq_true (Bool.and_eq_true_iff.1 h).2

/-- A reduced value fits the 1024 bits of an event when the upper bound does, so the event carries it whole (R142). -/
theorem event_mapInto_bounds (op : BitVec 4) (bounds : badBounds a b = false) (fits : fitsBound b = true) (x : Nat) :
    a ≤ ((event op (mapInto a b x)).value.toNat : Int) ∧ ((event op (mapInto a b x)).value.toNat : Int) ≤ b := by
  obtain ⟨ha, -, hab⟩ := badBounds_false.1 bounds
  have inside := mapInto_bounds x ha hab
  have lt : mapInto a b x < Config.boundLimit := Int.ofNat_lt.1 (inside.2.trans_lt (lt_of_fitsBound fits))
  rwa [event, toNat_ofNat_of_lt lt]

/-- The bounds a range command refuses (R131). -/
theorem badBounds_true : badBounds a b = true ↔ a < 0 ∨ b < 0 ∨ a > b := by
  simp [badBounds, or_assoc]

theorem badBounds_of_le (ha : 0 ≤ a) (hab : a ≤ b) : badBounds a b = false :=
  badBounds_false.2 ⟨ha, ha.trans hab, hab⟩

end Reducing

section Widths

/-! The draw width (R132, R133). -/

variable {a b : Int}

theorem bitlen_le {v n : Nat} (h : v < 2 ^ n) : bitlen v ≤ n := by
  rcases eq_or_ne v 0 with rfl | hv
  · exact Nat.zero_le n
  · have lt : 2 ^ bitlen v < 2 ^ (n + 1) := by
      have := two_pow_bitlen_le hv
      rw [pow_succ]
      omega
    exact Nat.lt_succ_iff.1 ((Nat.pow_lt_pow_iff_right Nat.one_lt_two).1 lt)

@[simp] theorem drawWidth_self (a : Int) : drawWidth a a = 1 := by
  simp [drawWidth, bitlen]

/-- On an interval of more than one value the width is the bit length of `b − a`, with nothing to round up. -/
theorem drawWidth_of_lt (h : a < b) : drawWidth a b = bitlen (b - a).toNat := by
  have pos : (b - a).toNat ≠ 0 := by omega
  exact max_eq_right (by rw [bitlen, if_neg pos]; omega)

theorem drawWidth_bounds (h : a < b) :
    2 ^ (drawWidth a b - 1) ≤ (b - a).toNat ∧ (b - a).toNat < 2 ^ drawWidth a b := by
  rw [drawWidth_of_lt h]
  have pos : (b - a).toNat ≠ 0 := by omega
  refine ⟨?_, lt_two_pow_bitlen _⟩
  rw [bitlen, if_neg pos]
  exact Nat.log2_self_le pos

theorem drawWidth_le {n : Nat} (hn : 1 ≤ n) (h : (b - a).toNat < 2 ^ n) : drawWidth a b ≤ n :=
  max_le hn (bitlen_le h)

end Widths

section Batches

/-! The integers of draws in a row, before any reduction (R134). -/

variable (w n : Nat) (S : Reg128)

/-- The integers of `n` draws of `w` bits in a row, in draw order; `drawValues_values` says that a batch reduces them. -/
def drawnInts : List Nat := (List.range n).map fun j => (drawBits w (regAfter (j * w) S) 0).2

theorem drawnInts_one : drawnInts w 1 S = [(drawBits w S 0).2] := by
  simp [drawnInts]

theorem drawnInts_succ : drawnInts w (n + 1) S = (drawBits w S 0).2 :: drawnInts w n (regAfter w S) := by
  simp [drawnInts, List.range_succ_eq_map, Function.comp_def, ← regAfter_add, Nat.succ_mul]

theorem drawnInts_length : (drawnInts w n S).length = n := by
  simp [drawnInts]

theorem drawnInts_lt : ∀ x ∈ drawnInts w n S, x < 2 ^ w := by
  simp [drawnInts, drawBits_lt]

/-- A draw that starts at a later step is a draw from the register there. -/
theorem drawBits_isDraw_at (start : Nat) : IsDraw S start w (drawBits w (regAfter start S) 0).2 :=
  ⟨drawBits_lt w _, fun j hj => by rw [drawBits_testBit w j _ hj, ← regAfter_add, Nat.add_comm]⟩

theorem drawValues_values (a b : Int) : (drawValues a b w n S).2 = (drawnInts w n S).map (mapInto a b) := by
  induction n generalizing S with
  | zero => rfl
  | succ n ih => rw [drawValues, ih, drawnInts_succ, List.map_cons, nextBits_reg, nextBits_plain]

end Batches

section Runs

/-! The state a run of draws leaves, one event for each integer. -/

variable {i : Instr} {f : Nat → Event} {w n : Nat} {s : State}

/-- The state `n` draws of `w` bits leave when the event of an integer is `f` of it. `NEXT` leaves it for one draw
(`exec_next_draws`), `RSTREAM` for a batch (`exec_rstream_of_seeded`). -/
def afterDraws (f : Nat → Event) (w n : Nat) (s : State) : State :=
  { s with
    regS := regAfter (n * w) s.regS, k := s.k + n * w, res := s.res ++ (drawnInts w n s.regS).map f,
    status := statusWord .ok false true }

/-- One draw, then `n` more, are `n + 1` draws. -/
theorem afterDraws_succ (f : Nat → Event) (w n : Nat) (s : State) :
    afterDraws f w n (afterDraws f w 1 s) = afterDraws f w (n + 1) s := by
  have one : drawnInts w 1 s.regS = [(drawBits w s.regS 0).2] := drawnInts_one w s.regS
  simp only [afterDraws, one, drawnInts_succ w n, List.map_cons, List.map_nil, List.append_assoc, List.singleton_append,
    Nat.one_mul, ← regAfter_add, Nat.succ_mul n w, Nat.add_assoc, Nat.add_comm w]

/-- A command that makes one draw in every seeded state, issued `n + 1` times, makes `n + 1` draws (R135). -/
theorem execAll_replicate_draws (one : ∀ u : State, u.seeded = true → exec i u = .next (afterDraws f w 1 u))
    (hs : s.seeded = true) (n : Nat) :
    execAll (List.replicate (n + 1) i) s = .next (afterDraws f w (n + 1) s) := by
  induction n generalizing s with
  | zero => exact (execAll_singleton i s).trans (one s hs)
  | succ n ih => rw [List.replicate_succ, execAll_cons (one s hs), ih (s := afterDraws f w 1 s) hs, afterDraws_succ]

theorem exec_next_draws (h1 : 1 ≤ w) (h2 : w ≤ 1024) (hs : s.seeded = true) :
    exec (.next w false) s = .next (afterDraws (fun x => ⟨0x6#4, BitVec.ofNat 1024 x⟩) w 1 s) := by
  rw [exec_next_of_seeded h1 h2 hs, afterDraws, drawnInts_one, Nat.one_mul]
  rfl

end Runs

section RangeCommands

/-! `RSTREAM` and `RHASH`, one equation for each way they end (R131, R134, R136, R138). -/

variable {a b : Int} {count h : Nat} {s : State}

theorem exec_rstream_bad_bounds (bad : a < 0 ∨ b < 0 ∨ a > b) :
    exec (.rstream a b count) s = .next (raise .errParam false s) := if_pos (badBounds_true.2 bad)

theorem exec_rstream_too_wide (ha : 0 ≤ a) (hab : a ≤ b) (hc : 1 ≤ count) (wide : 1024 < drawWidth a b) :
    exec (.rstream a b count) s = .next (raise .errParam false s) := by
  rw [exec, execRstream, if_neg (by simp [badBounds_of_le ha hab]), if_pos ⟨hc, wide⟩]

theorem exec_rstream_unseeded (ha : 0 ≤ a) (hab : a ≤ b) (width : 1 ≤ count → drawWidth a b ≤ 1024)
    (hs : s.seeded = false) : exec (.rstream a b count) s = .next (raise .errUnseeded false s) := by
  have bounds := badBounds_of_le ha hab
  rcases execRstream_cases a b count s with ⟨-, bad | ⟨hc, wide⟩⟩ | ⟨he, -⟩ | ⟨-, -, seeded⟩
  · exact nomatch bounds.symm.trans bad
  · exact absurd (width hc) wide.not_ge
  · exact he
  · exact nomatch hs.symm.trans seeded

theorem exec_rstream_of_seeded (ha : 0 ≤ a) (hab : a ≤ b) (width : 1 ≤ count → drawWidth a b ≤ 1024)
    (hs : s.seeded = true) :
    exec (.rstream a b count) s = .next (afterDraws (reducedEvent 0x7#4 a b) (drawWidth a b) count s) := by
  have bounds := badBounds_of_le ha hab
  have events : (drawValues a b (drawWidth a b) count s.regS).2.map (event 0x7#4) =
      (drawnInts (drawWidth a b) count s.regS).map (reducedEvent 0x7#4 a b) := by
    rw [drawValues_values, List.map_map]
    exact List.map_congr_left fun x _ => event_mapInto 0x7#4 ha hab x
  rcases execRstream_cases a b count s with ⟨-, bad | ⟨hc, wide⟩⟩ | ⟨-, unseeded⟩ | ⟨he, -⟩
  · exact nomatch bounds.symm.trans bad
  · exact absurd (width hc) wide.not_ge
  · exact nomatch hs.symm.trans unseeded
  · refine he.trans ?_
    simp only [afterDraws, complete_eq, State.finish, emitAll_seeded, emitAll_res, advance_seeded, advance_res,
      drawValues_reg, events, hs]
    rfl

theorem exec_rhash_bad_bounds (bad : a < 0 ∨ b < 0 ∨ a > b) :
    exec (.rhash a b h) s = .next (raise .errParam true s) := if_pos (badBounds_true.2 bad)

theorem exec_rhash_of_le (ha : 0 ≤ a) (hab : a ≤ b) :
    exec (.rhash a b h) s = .next (complete true (s.emitAll 0x8#4 [mapInto a b h])) := by
  rcases execRhash_cases a b h s with ⟨-, bad⟩ | ⟨he, -⟩
  · exact nomatch (badBounds_of_le ha hab).symm.trans bad
  · exact he

end RangeCommands

/-- Settles O37: the equations of `RSTREAM`, and each integer of the batch as the draw at its step. -/
theorem rstreamDrawsABatch : Obligations.RstreamDrawsABatch := by
  refine ⟨fun t hcw => decode_eq_ok_iff.2 ⟨(and_fullMask _).trans hcw, rfl⟩, fun a b count s => exec_rstream_bad_bounds,
    fun a b count s => exec_rstream_too_wide, fun a b count s => exec_rstream_unseeded, ?_⟩
  intro a b count s ha hab width hs
  refine ⟨fun j => (drawBits (drawWidth a b) (regAfter (j * drawWidth a b) s.regS) 0).2,
    fun j _ => drawBits_isDraw_at (drawWidth a b) s.regS (j * drawWidth a b), ?_⟩
  rw [exec_rstream_of_seeded ha hab width hs, afterDraws, drawnInts, List.map_map]
  rfl

/-- Settles O38: batches of one and plain draws both run as draws of the same width; a batch of none makes no draw. -/
theorem batchIsTheSequenceOfItsDraws : Obligations.BatchIsTheSequenceOfItsDraws := by
  refine ⟨fun a b count s ha hab width hs hc => ?_, fun a b s ha hab => ?_⟩
  · obtain ⟨n, rfl⟩ : ∃ n, count = n + 1 := ⟨count - 1, by omega⟩
    exact ⟨_, _, drawnInts (drawWidth a b) (n + 1) s.regS, exec_rstream_of_seeded ha hab (fun _ => width) hs,
      execAll_replicate_draws (fun u => exec_rstream_of_seeded ha hab fun _ => width) hs n,
      execAll_replicate_draws (fun u => exec_next_draws (le_max_left ..) width) hs n,
      drawnInts_length .., rfl, drawnInts_lt _ _ _, rfl⟩
  · cases hs : s.seeded with
    | true =>
      rw [exec_rstream_of_seeded ha hab (by omega) hs]
      simp [afterDraws, drawnInts, hs]
    | false =>
      rw [exec_rstream_unseeded ha hab (by omega) hs, raise_eq, hs]
      rfl

/-- Settles O39: the bit length brackets its number, and `b − a` is no greater than `b`, which the port bounds. -/
theorem drawWidthIsTheBitLength : Obligations.DrawWidthIsTheBitLength := by
  refine ⟨fun a b h => ?_, drawWidth_self, fun a b ha hab fits => ?_⟩
  · obtain ⟨low, high⟩ := drawWidth_bounds h
    omega
  · have width : ((b - a).toNat : Int) ≤ b := by omega
    exact drawWidth_le (by decide) (Int.ofNat_lt.1 (width.trans_lt (lt_of_fitsBound fits)))

/-- Settles O40: the width is 1, and modulo 1 every integer drawn is 0. -/
theorem zeroWidthIntervalDrawsOneBit : Obligations.ZeroWidthIntervalDrawsOneBit := by
  intro a count s ha hs
  have width : drawWidth a a = 1 := drawWidth_self a
  have events : (drawnInts 1 count s.regS).map (reducedEvent 0x7#4 a a) =
      List.replicate count ⟨0x7#4, BitVec.ofInt 1024 a⟩ := by
    rw [funext (reducedEvent_self 0x7#4 a), List.map_const', drawnInts_length]
  rw [exec_rstream_of_seeded ha le_rfl (fun _ => width.le.trans (by decide)) hs, width, afterDraws, events, Nat.mul_one]

/-- Settles O42: a rejection emits nothing, and a completing command emits values `mapInto` reduced into the interval. -/
theorem rangeResultsStayInTheInterval : Obligations.RangeResultsStayInTheInterval := by
  intro i a b s t hwf hi h
  have fits : fitsBound b = true := by
    rcases hi with ⟨count, rfl⟩ | ⟨d, rfl⟩ <;> simp_all only [Instr.wf, Bool.and_eq_true]
  rcases exec_next_cases h with rejected | completed
  · exact ⟨[], by rw [rejected.state_eq, List.append_nil], fun _ he => absurd he List.not_mem_nil⟩
  · rcases hi with ⟨count, rfl⟩ | ⟨d, rfl⟩
    · cases completed with
      | rstream bounds =>
        refine ⟨_, rfl, List.forall_mem_map.2 fun v hv => ?_⟩
        rw [drawValues_values] at hv
        obtain ⟨x, -, rfl⟩ := List.mem_map.1 hv
        exact event_mapInto_bounds 0x7#4 bounds fits x
    · cases completed with
      | rhash bounds => exact ⟨_, rfl, List.forall_mem_singleton.2 (event_mapInto_bounds 0x8#4 bounds fits d)⟩

/-- Settles O41: the equations of `RHASH`, with the reduction on the integers. -/
theorem rhashReducesTheDigest : Obligations.RhashReducesTheDigest := by
  refine ⟨fun t hcw => decode_eq_ok_iff.2 ⟨(and_fullMask _).trans hcw, rfl⟩, fun a b h s => exec_rhash_bad_bounds,
    fun a b h s ha hab => ?_⟩
  rw [exec_rhash_of_le ha hab, complete_eq, State.finish, State.emitAll, List.map_singleton, event_mapInto 0x8#4 ha hab]
  rfl

end Sys2Proof.Machine

/-! PROOFS of the family 60_exceptions.md. First how a step on a command ends, said once in `step_command_cases`, and that no
command reads `STATUS`; then the obligations. -/

namespace Sys2Proof.Machine

section CommandEndings

variable {s u : State} {t : Transfer} {rest : List HostInput} {i : Instr}

/-- The advisory of a transfer is the one of the command it decodes to (R139). -/
theorem decodesAsRhash_of_ok (hd : decode t = .ok i) : decodesAsRhash t = decide (opcode i = 0x8#4) := by
  rw [decodesAsRhash, hd]
  cases i <;> rfl

theorem decodesAsRhash_of_error {e : Illegal} (hd : decode t = .error e) : decodesAsRhash t = false := by
  rw [decodesAsRhash, hd]

/-- A step on a command that goes on rejects it, an illegal word like any other command, or completes it (R69, R154, R155). -/
theorem step_command_cases (hp : s.port = .command t :: rest) (h : step s = .next u) :
    (∃ c, c ≠ .ok ∧ u = { s with port := rest, status := statusWord c (decodesAsRhash t) s.seeded }) ∨
    ∃ i, decode t = .ok i ∧ Completes henonArith { s with port := rest } i u := by
  cases hd : decode t with
  | error e =>
    have illegal := Host.Outcome.next.inj (h.symm.trans (stepBy_of_illegal hp hd))
    exact .inl ⟨.errIllegal, nofun, decodesAsRhash_of_error hd ▸ illegal⟩
  | ok i =>
    have run : exec i { s with port := rest } = .next u := (stepBy_of_command hp hd).symm.trans h
    rcases exec_next_cases run with ⟨c, hc, rejected⟩ | completed
    · exact .inl ⟨c, hc, decodesAsRhash_of_ok hd ▸ rejected⟩
    · exact .inr ⟨i, rfl, completed⟩

/-- No command reads `STATUS`, and every one that goes on rewrites it: what it held before makes no difference (R26, R158). -/
theorem exec_with_status (i : Instr) (s : State) (w : Word) : exec i { s with status := w } = exec i s := by
  cases i <;> rfl

end CommandEndings

/-- Settles O13: a rejection and a completion both end by writing the status word, with the advisory of the decoded command. -/
theorem everyCommandRewritesStatus : Obligations.EveryCommandRewritesStatus := by
  intro s u t rest hp h
  rcases step_command_cases hp h with ⟨c, -, rfl⟩ | ⟨i, hd, completed⟩
  · exact ⟨c, rfl⟩
  · exact ⟨.ok, decodesAsRhash_of_ok hd ▸ completed.status_eq⟩

/-- Settles O14: a step that ends in another code than `OK` is a rejection, whose whole next state `step_command_cases` gives. -/
theorem rejectionWritesOnlyStatus : Obligations.RejectionWritesOnlyStatus := by
  intro s u t rest hp h code
  rcases step_command_cases hp h with ⟨c, -, rfl⟩ | ⟨i, -, completed⟩
  · exact ⟨c, (statusCode_statusWord ..).symm, rfl⟩
  · exact absurd completed.statusCode_eq code

/-- Settles O15: a rejected state is the one before it up to `STATUS`, which the command does not read. -/
theorem rejectionRepeats : Obligations.RejectionRepeats := by
  intro i s t h code
  rcases exec_next_cases h with rejected | completed
  · calc exec i t = exec i { s with status := t.status } := congrArg _ rejected.state_eq
      _ = exec i s := exec_with_status i s t.status
      _ = .next t := h
  · exact absurd completed.statusCode_eq code

end Sys2Proof.Machine

/-! PROOFS of the family 70_reset_and_hazards.md. First the step of the machine on two states no run can tell apart, the bound on
the codes, and a run of transfers, whose rule is `runCommands_cons_eq_next`; then the obligations. -/

namespace Sys2Proof.Machine

section Steps

variable {s t : State}

/-- A presented reset is taken whatever meanings the step is given (R180). -/
theorem stepBy_of_reset {meaning : Instr → State → Host.Outcome State Fault Refusal} {rest : List HostInput}
    (hp : s.port = .reset :: rest) : stepBy meaning s = .next { State.reset with port := rest } := by
  rw [stepBy, takeInput, hp]
  rfl

/-- Under the invariant a step goes on (R157, R193). -/
theorem step_goes_on (hs : Inv s) : ∃ t, step s = .next t :=
  stepBy_goes_on (fun i s hs => exec_eq_execWith i s ▸ execWith_goes_on henonArith i hs) hs

/-- No step of the machine tells two such states apart: its meanings are those of `execWith` (R181). -/
theorem SameToAnyRun.step_sameOutcome (h : SameToAnyRun s t) : SameOutcome (step s) (step t) := by
  refine h.stepBy_sameOutcome fun i s t h => ?_
  rw [exec_eq_execWith, exec_eq_execWith]
  exact h.execWith_sameOutcome henonArith i

/-- An outcome that agrees with a next state is itself a next state, one no run can tell from it. -/
theorem SameOutcome.exists_next {o : Host.Outcome State Fault Refusal} (h : SameOutcome (.next s) o) :
    ∃ t, o = .next t ∧ SameToAnyRun s t := by
  cases o with
  | next t => exact ⟨t, rfl, h⟩
  | fault | refused => exact h.elim

/-- What no run can tell apart looks the same to the host at once (R46). -/
theorem SameToAnyRun.visible_eq (h : SameToAnyRun s t) : visible s = visible t := by
  rw [visible, visible, h.status_eq, h.len_eq, h.res_eq]

end Steps

section Codes

theorem codeBits_le (c : Code) : codeBits c ≤ 6#4 := by
  cases c <;> decide

/-- Under the invariant `STATUS` holds one of the seven codes (R26, R150). -/
theorem Inv.statusCode_le {s : State} (hs : Inv s) : statusCode s.status ≤ 6#4 := by
  obtain ⟨c, depr, hstatus⟩ := hs.status_word
  rw [hstatus, statusCode_statusWord]
  exact codeBits_le c

end Codes

section TransferRuns

variable {d : Transfer} {cmds : List Transfer} {s t u : State} {codes : List (BitVec 4)}

/-- A run of one transfer and more ends iff the step on the first one goes on and the run of the others ends; the first code is
the one that step left in `STATUS` (R194). -/
theorem runCommands_cons_eq_next :
    runCommands (d :: cmds) s = .next (codes, u) ↔
      ∃ s' rest, step (s.setPort [.command d]) = .next s' ∧ runCommands cmds s' = .next (rest, u) ∧
        codes = statusCode s'.status :: rest := by
  constructor
  · intro hrun
    rw [runCommands] at hrun
    split at hrun
    · next s' hstep =>
      split at hrun
      · next rest v hrest =>
        cases hrun
        exact ⟨s', rest, hstep, hrest, rfl⟩
      all_goals exact nomatch hrun
    all_goals exact nomatch hrun
  · rintro ⟨s', rest, hstep, hrest, rfl⟩
    rw [runCommands, hstep]
    simp only [hrest]

/-- A run of the same transfers from the other state gives the same codes, and ends in a state no run can tell from this one's. -/
theorem SameToAnyRun.runCommands_eq (h : SameToAnyRun s t) (hrun : runCommands cmds s = .next (codes, u)) :
    ∃ v, runCommands cmds t = .next (codes, v) ∧ SameToAnyRun u v := by
  induction cmds generalizing s t codes with
  | nil =>
    cases hrun
    exact ⟨t, rfl, h⟩
  | cons d cmds ih =>
    obtain ⟨s', rest, hstep, hrest, rfl⟩ := runCommands_cons_eq_next.1 hrun
    obtain ⟨t', hstep', same⟩ := (hstep ▸ (h.setPort [.command d]).step_sameOutcome).exists_next
    obtain ⟨v, hrest', same'⟩ := ih same hrest
    exact ⟨v, runCommands_cons_eq_next.2 ⟨t', rest, hstep', hrest', by rw [same.status_eq]⟩, same'⟩

end TransferRuns

/-- Settles O46: a run is a step for each transfer, and no step tells the two states apart; what the host sees of them is equal. -/
theorem noRunTellsWhatWasNeverWritten : Obligations.NoRunTellsWhatWasNeverWritten := by
  refine ⟨fun s t h => h.step_sameOutcome, fun cmds s t h codes s' hrun => ?_⟩
  obtain ⟨t', hrun', same⟩ := h.runCommands_eq hrun
  exact ⟨t', hrun', same.visible_eq⟩

/-- Settles O26: over cells that all hold 0 the walk assembles 0, which `ISEED` loads. -/
theorem blackFrameLoadsTheZeroSeed : Obligations.BlackFrameLoadsTheZeroSeed :=
  fun _ _ _ black inRange => iseedWith_value (iSample_of_walkInRange inRange (isSampleValue_const inRange black))

/-- Settles O45. -/
theorem noStepStopsUnderTheInvariant : Obligations.NoStepStopsUnderTheInvariant := fun _ hs => step_goes_on hs

/-- Settles O49, by induction on the transfers: each step goes on and keeps the invariant, which bounds the code it leaves. -/
theorem everyRunEndsWithOneCodePerCommand : Obligations.EveryRunEndsWithOneCodePerCommand := by
  intro cmds
  induction cmds with
  | nil => exact fun s hs => ⟨[], s, rfl, rfl, hs, fun _ hc => absurd hc List.not_mem_nil⟩
  | cons d cmds ih =>
    intro s hs
    have presented : Inv (s.setPort [.command d]) := hs.setPort _
    obtain ⟨s', hstep⟩ := step_goes_on presented
    have hs' : Inv s' := everyStepKeepsTheInvariant _ _ presented hstep
    obtain ⟨rest, t, hrest, hlen, ht, hle⟩ := ih s' hs'
    refine ⟨_, t, runCommands_cons_eq_next.2 ⟨s', rest, hstep, hrest, rfl⟩, congrArg Nat.succ hlen, ht, ?_⟩
    exact List.forall_mem_cons.2 ⟨hs'.statusCode_le, hle⟩

/-- Settles O2. -/
theorem resetInputForgetsEverything : Obligations.ResetInputForgetsEverything := fun _ _ hp => stepBy_of_reset hp

end Sys2Proof.Machine

/-! PROOFS of the remaining statements: the idle step, and words written out from the formats of the encoding. -/

namespace Sys2Proof.Machine

/-- With nothing presented a step answers its state, whatever meanings it is given (93 U16). -/
theorem stepBy_of_idle {meaning : Instr → State → Host.Outcome State Fault Refusal} {s : State} (hp : s.port = []) :
    stepBy meaning s = .next s := by
  rcases stepBy_cases meaning s with ⟨-, he⟩ | ⟨_, reset, -⟩ | ⟨_, _, _, illegal, -⟩ | ⟨_, _, _, command, -⟩
  · exact he
  · exact nomatch hp.symm.trans reset
  · exact nomatch hp.symm.trans illegal
  · exact nomatch hp.symm.trans command

/-- Settles O3: `step` is `stepBy` with the meanings of `exec`. -/
theorem idleStepChangesNothing : Obligations.IdleStepChangesNothing := fun _ hp => stepBy_of_idle hp

/-- Settles O11: each word matches its command's row, and its fields and ports carry the command's operands, a bound as
a two's complement number (R67). -/
theorem wordsOfTheFormatsDecode : Obligations.WordsOfTheFormatsDecode := by
  refine ⟨?bmpush, ?isamp, ?next, ?rstream⟩ <;> rw [decode_eq_ok_iff]
  case bmpush => exact ⟨by decide, by decide⟩
  case isamp => exact ⟨by decide, by decide⟩
  case next => exact ⟨by decide, by decide⟩
  case rstream =>
    have lower : sextBound (BitVec.allOnes 1025) = -1 := BitVec.toInt_allOnes
    have upper : sextBound 3#1025 = 3 := by decide +kernel
    refine ⟨by decide, ?_⟩
    rw [opcode, commandOf, lower, upper]
    rfl

end Sys2Proof.Machine
